-- ==== Sys2Proof/Word.lean ====
section
/-! DEFINITION. The bit patterns of the block: widths only (spec/30_encoding.md rules R38, R39, R44). -/

namespace Sys2Proof

/-- A binary32 pattern (R38), bit 31 the sign. -/
abbrev Single := BitVec 32

/-- A binary16 pattern (R39), bit 15 the sign. -/
abbrev Half := BitVec 16

/-- A word on the 32-bit ports `din` and `dout` (R20). -/
abbrev PortWord := BitVec 32

/-- A command word `cmd[3:0]` (R44). -/
abbrev Command := BitVec 4

end Sys2Proof
end

