-- ==== Sys2Proof/Config.lean ====
section
/-! DEFINITION. What a build fixes and the spec leaves open (R7, R100).  `HAS_NATIVE` is carried by the state
(Machine/State.lean; assumption log, entry 2); the two parameter functions stand here, with no body. -/

namespace Sys2Proof

/-- `NATIVE_ENC_NONFINITE` (R100): what the native unit returns when it encodes an infinity or a NaN.  A total
function about which nothing is assumed: it has no body, so no proof can see a value of it (assumption log,
entry 5).  Read only by `ENC.NATIVE`, only with `HAS_NATIVE`, only on exponent field 255. -/
opaque Config.nativeEncNonfinite : Single → Half

/-- `NATIVE_DEC_NONFINITE` (R100): the same for a decode of exponent field 31; read only by `DEC`. -/
opaque Config.nativeDecNonfinite : Half → Single

end Sys2Proof
end

