-- ==== Sys2Proof/Syntax.lean ====
section
/-! DEFINITION. The nine operations, one constructor per row of spec/opcode_table.json (R3, R45). -/

namespace Sys2Proof

/-- The operations a command selects (R45).  None has a register number, an immediate or an addressing mode
(R47): the operand stands on `din`. -/
inductive Instr where
  /-- `ENC.REF`, command `0000` (R74). -/
  | encRef
  /-- `ENC.RTNE`, command `0001` (R75). -/
  | encRtne
  /-- `ENC.FAST`, command `0010` (R76). -/
  | encFast
  /-- `ENC.FAST2`, command `0011` (R84). -/
  | encFast2
  /-- `ENC.FAST3`, command `0100` (R85). -/
  | encFast3
  /-- `ENC.FAST3RTNE`, command `0101` (R87). -/
  | encFast3Rtne
  /-- `ENC.APPROX`, command `0110` (R89). -/
  | encApprox
  /-- `ENC.NATIVE`, command `0111` (R98). -/
  | encNative
  /-- `DEC`, command `1vvv` (R68, R99).  `variant` is the field `cmd[2:0]` that the block ignores (R48): eight
  spellings of one operation, kept here so that encoding loses no bit (assumption log, entry 8). -/
  | dec (variant : BitVec 3)
  deriving DecidableEq, Repr

end Sys2Proof
end

