-- ==== Sys2Proof/Transaction.lean ====
section
/-! DEFINITION. The host's side of the ports as plain data: a transaction (R19), and a line of the transaction
syntax with its `$k` operand (R49; decision D22).  The `$k` copy is done by the test harness, not by the block. -/

namespace Sys2Proof

/-- What the host presents for one evaluation: the triple (`cmd`, `din`, `FTZ`) of R19. -/
structure Transaction where
  cmd : Command
  din : PortWord
  ftz : Bool
  deriving DecidableEq, Repr

/-- The operand of a line (R49): a literal, or `$k`, the result of line `k` of the same program, counted from 1. -/
inductive LineOperand where
  | literal (v : PortWord)
  | result (k : Nat)
  deriving DecidableEq, Repr

/-- One line `<mnemonic> <operand>` of R49, with the `FTZ` the host holds for it. -/
structure Line where
  instr : Instr
  operand : LineOperand
  ftz : Bool
  deriving DecidableEq, Repr

end Sys2Proof
end

