-- ==== Sys2Proof/WellFormed.lean ====
section
/-! DEFINITION. Well-formedness.  An instruction has no check that could fail: no command is illegal or reserved
(R48) and no operand pattern is illegal (R43).  The checks that exist are those of the transaction syntax (R49). -/

namespace Sys2Proof

/-- Is the operation a decode, `DIR` = 1 (R44)? -/
def Instr.isDecode : Instr → Bool
  | .encRef => false
  | .encRtne => false
  | .encFast => false
  | .encFast2 => false
  | .encFast3 => false
  | .encFast3Rtne => false
  | .encApprox => false
  | .encNative => false
  | .dec _ => true

/-- Every instruction is well formed (R48): each constructor is some value of `cmd`, whatever its fields. -/
def Instr.wellFormed : Instr → Bool
  | .encRef => true
  | .encRtne => true
  | .encFast => true
  | .encFast2 => true
  | .encFast3 => true
  | .encFast3Rtne => true
  | .encApprox => true
  | .encNative => true
  | .dec _ => true

/-- A line after `n` earlier lines (R49): the literal of a decode has 4 hexadecimal digits (that of an encode has
8, the width of the port), and `$k` names an earlier line of the same program.

DESIGN CHOICE (assumption log, entry 17): the spec disagrees with itself on a decode literal.  R49 gives it 4 digits,
while line 6 of program P5 (spec/95_test_vectors.md section 4) writes `DEC 0xDEADC248` with 8.  This check follows
R49, so that line is ill formed here; `runLines` runs it all the same, and the block ignores its upper 16 bits (R46). -/
def Line.wellFormed (n : Nat) (l : Line) : Bool :=
  match l.operand with
  | .literal v => !l.instr.isDecode || decide (v.toNat < 2 ^ 16)
  | .result k => decide (1 ≤ k ∧ k ≤ n)

/-- Every line of a list that follows `n` lines is well formed. -/
def linesWellFormed : Nat → List Line → Bool
  | _, [] => true
  | n, l :: ls => l.wellFormed n && linesWellFormed (n + 1) ls

end Sys2Proof
end

