-- ==== Sys2Proof/Decode.lean ====
section
/-! DEFINITION. The command word, read and written (R44, R45, R48): the decoder, the encoder, and the decoder on
a word numbered as spec/opcode_table.json numbers it. -/

namespace Sys2Proof

/-- The field `DIR` = `cmd[3]` (R44). -/
def commandDir (c : Command) : Bool := c.getLsbD 3

/-- The field `VARIANT` = `cmd[2:0]` (R44). -/
def commandVariant (c : Command) : BitVec 3 := c.extractLsb' 0 3

/-- The command word with the given fields (R44). -/
def commandOf (dir : Bool) (variant : BitVec 3) : Command := BitVec.ofBool dir ++ variant

/-- The encoder variant a selector names (R45): its position in the source's enumeration, from 0. -/
def decodeVariant (v : BitVec 3) : Instr :=
  match v.toNat with
  | 0 => .encRef
  | 1 => .encRtne
  | 2 => .encFast
  | 3 => .encFast2
  | 4 => .encFast3
  | 5 => .encFast3Rtne
  | 6 => .encApprox
  | _ => .encNative

/-- The instruction a command word selects: total, since all 16 values of `cmd` select an operation (R45, R48). -/
def decode (c : Command) : Instr :=
  if commandDir c then .dec (commandVariant c) else decodeVariant (commandVariant c)

/-- The command word of an instruction, from the table of R45. -/
def encode : Instr → Command
  | .encRef => commandOf false 0
  | .encRtne => commandOf false 1
  | .encFast => commandOf false 2
  | .encFast2 => commandOf false 3
  | .encFast3 => commandOf false 4
  | .encFast3Rtne => commandOf false 5
  | .encApprox => commandOf false 6
  | .encNative => commandOf false 7
  | .dec variant => commandOf true variant

/-- Why a numbered word is no command. -/
inductive DecodeError where
  /-- A bit above bit 3 is set.  `cmd` has four wires (R20, R44), so such a word is not a value of `cmd`; safe,
  since nothing is proved of it. -/
  | bitAboveCommand
  deriving DecidableEq, Repr

/-- The decoder on a word of any size: the four low bits are `cmd` (R44), and a word with a bit above them is
refused by name (assumption log, entry 9). -/
def decodeNumbered (w : Nat) : Except DecodeError Instr :=
  if w < 2 ^ 4 then .ok (decode (BitVec.ofNat 4 w)) else .error .bitAboveCommand

/-- The instruction read from a word numbered as spec/opcode_table.json numbers it.  The command has one length,
4 bits (R44), so `nbits` selects nothing. -/
def decodeTableWord (_nbits w : Nat) : Option Instr :=
  match decodeNumbered w with
  | .ok i => some i
  | .error _ => none

/-- The mnemonic of R45. -/
def mnemonic : Instr → String
  | .encRef => "ENC.REF"
  | .encRtne => "ENC.RTNE"
  | .encFast => "ENC.FAST"
  | .encFast2 => "ENC.FAST2"
  | .encFast3 => "ENC.FAST3"
  | .encFast3Rtne => "ENC.FAST3RTNE"
  | .encApprox => "ENC.APPROX"
  | .encNative => "ENC.NATIVE"
  | .dec _ => "DEC"

/-- The name in the source's enumeration (R45): the `variant_selector` of its `encode`, or its `decode`. -/
def sourceName : Instr → String
  | .encRef => "reference"
  | .encRtne => "reference_rtne"
  | .encFast => "fast"
  | .encFast2 => "fast2"
  | .encFast3 => "fast3"
  | .encFast3Rtne => "fast3_rtne"
  | .encApprox => "approximate"
  | .encNative => "native"
  | .dec _ => "decode"

end Sys2Proof
end

