-- ==== Sys2Proof/Machine/Flags.lean ====
section
/-! DEFINITION. The block has no flag, condition code or status bit, and no operation sets or reads one (R23, R104).
What an operation tests instead are the exponent_bias_adjuster's outputs: the rebiased exponents (R50, R51) and the
classification signals in their priority (R52). -/

namespace Sys2Proof.Machine

/-- `eba_enc(E)` (R50): `newexp = E - 127 + 15`, a signed integer that never wraps. -/
def ebaEnc (E : Nat) : Int := (E : Int) - 127 + 15

/-- `eba_dec(e)` (R51): the exponent field of the single; 113 is provisional for `e` = 0 (R63). -/
def ebaDec (e : Nat) : Nat :=
  if e = 31 then 255 else if e = 0 then 113 else e + 112

/-- The case a single's exponent field falls in, the cases (b) to (f) of R73. -/
inductive ExpClass where
  /-- `is_max`: exponent field 255, an infinity or a NaN; case (b). -/
  | isMax
  /-- `overflow`: `newexp` at least 31; case (c). -/
  | overflow
  /-- `underflow` with `representable`: the result is a half subnormal or rounds up to 0x0400; case (d). -/
  | subnormal
  /-- `underflow` without `representable`: below half of the least subnormal; case (e). -/
  | tooSmall
  /-- The normal range, `newexp` 1 to 30; case (f). -/
  | normal
  deriving DecidableEq, Repr

/-- The classification signals in the priority of R52, the order of tests of R80. -/
def expClass (E : Nat) : ExpClass :=
  if E = 255 then .isMax
  else if ebaEnc E ≥ 31 then .overflow
  else if ebaEnc E ≤ 0 then
    if 14 - ebaEnc E ≤ 24 then .subnormal else .tooSmall
  else .normal

end Sys2Proof.Machine
end

