-- ==== Sys2Proof/Machine/Formats.lean ====
section
/-! DEFINITION. The two data formats: their fields (R38, R39), the numbers they denote (R40, R41) and the six
categories (R42). -/

namespace Sys2Proof.Machine

/-- `S` = `f[31]` (R38). -/
def singleSign (f : Single) : Bool := f.getLsbD 31

/-- `E` = `f[30:23]`, an unsigned integer 0 to 255 (R38). -/
def singleExp (f : Single) : Nat := (f.extractLsb' 23 8).toNat

/-- `M` = `f[22:0]`, an unsigned integer 0 to 0x7FFFFF (R38). -/
def singleMant (f : Single) : Nat := (f.extractLsb' 0 23).toNat

/-- `s` = `h[15]` (R39). -/
def halfSign (h : Half) : Bool := h.getLsbD 15

/-- `e` = `h[14:10]`, an unsigned integer 0 to 31 (R39). -/
def halfExp (h : Half) : Nat := (h.extractLsb' 10 5).toNat

/-- `m` = `h[9:0]`, an unsigned integer 0 to 0x3FF (R39). -/
def halfMant (h : Half) : Nat := (h.extractLsb' 0 10).toNat

/-- What a pattern denotes (R40, R41).  Every finite value of either format is a multiple of 2^-149, so a
magnitude is counted in units of 2^-149 (assumption log, entry 10).  Zero keeps its sign (R40). -/
inductive Value where
  | nan
  | infinity (negative : Bool)
  | finite (negative : Bool) (units : Nat)
  deriving DecidableEq, Repr

/-- The magnitude of a finite single with fields `E` and `M`, in units of 2^-149 (R40): `M` units when `E` is 0,
else `(2^23 + M) * 2^(E - 150)`, which is `(2^23 + M) * 2^(E - 1)` units. -/
def singleUnits (E M : Nat) : Nat := if E = 0 then M else (2 ^ 23 + M) * 2 ^ (E - 1)

/-- The magnitude of a half with fields `e` and `m`, in units of 2^-149 (R41): `m * 2^(-24)` is `m * 2^125` units,
and `(2^10 + m) * 2^(e - 25)` is `(2^10 + m) * 2^(e + 124)` units.  At `e` = 31, `m` = 0 the formula gives 65536,
which is what R79 reads the word 0x7C00 as. -/
def halfUnits (e m : Nat) : Nat := if e = 0 then m * 2 ^ 125 else (2 ^ 10 + m) * 2 ^ (e + 124)

/-- `val32(f)` (R40). -/
def val32 (f : Single) : Value :=
  if singleExp f = 255 then
    if singleMant f = 0 then .infinity (singleSign f) else .nan
  else .finite (singleSign f) (singleUnits (singleExp f) (singleMant f))

/-- `val16(h)` (R41). -/
def val16 (h : Half) : Value :=
  if halfExp h = 31 then
    if halfMant h = 0 then .infinity (halfSign h) else .nan
  else .finite (halfSign h) (halfUnits (halfExp h) (halfMant h))

/-- The six categories (R42). -/
inductive Category where
  | zero
  | subnormal
  | normal
  | infinity
  | quietNaN
  | signalingNaN
  deriving DecidableEq, Repr

/-- The table of R42 for exponent field `X` (greatest value `Xmax`), mantissa field `F` and quiet bit `q`. -/
def categoryOf (Xmax X F : Nat) (q : Bool) : Category :=
  if X = 0 then (if F = 0 then .zero else .subnormal)
  else if X = Xmax then
    if F = 0 then .infinity else if q then .quietNaN else .signalingNaN
  else .normal

/-- `cat32(f)` (R42); the quiet bit is `f[22]`. -/
def cat32 (f : Single) : Category := categoryOf 255 (singleExp f) (singleMant f) (f.getLsbD 22)

/-- `cat16(h)` (R42); the quiet bit is `h[9]`. -/
def cat16 (h : Half) : Category := categoryOf 31 (halfExp h) (halfMant h) (h.getLsbD 9)

/-- A NaN of either kind (R42). -/
def Category.isNaN : Category → Bool
  | .zero => false
  | .subnormal => false
  | .normal => false
  | .infinity => false
  | .quietNaN => true
  | .signalingNaN => true

/-- "Finite" means zero, subnormal or normal (R42). -/
def Category.isFinite : Category → Bool
  | .zero => true
  | .subnormal => true
  | .normal => true
  | .infinity => false
  | .quietNaN => false
  | .signalingNaN => false

end Sys2Proof.Machine
end

