-- ==== Sys2Proof/Machine/State.lean ====
section
/-! DEFINITION. The state as plain data, the (empty) fault type, the refusal type, and the state right after reset.

The block holds no architectural state (R21): no register, program counter, flag, memory or mode (R21 to R28).
The fields below are its ports (R20) and its one build-time Boolean (R97), the things an evaluation reads and the
thing it drives; they are the MODEL's representation (assumption log, entries 1 and 2). -/

namespace Sys2Proof.Machine

/-- The values on the block's ports, and the build parameter `HAS_NATIVE`. -/
structure State where
  /-- Input port `cmd[3:0]`: direction and variant (R20, R44). -/
  cmd : Command
  /-- Input port `din[31:0]`: the operand (R20, R46). -/
  din : PortWord
  /-- Input port `FTZ`: flush-to-zero mode of the internal floating-point unit, true for 1 (R20, R27, R60). -/
  ftz : Bool
  /-- Output port `dout[31:0]`: the answer to the last transaction evaluated (R20, R46). -/
  dout : PortWord
  /-- Build parameter `HAS_NATIVE` (R11, R97): the same for the whole life of the block, so no step writes it. -/
  hasNative : Bool
  deriving DecidableEq, Repr

/-- The ways a step can fault: NONE.  "A model has no fault type, no trap relation and no "stuck" outcome for this
block" (R116, R104); the interface asks for a type, and the one with no constructor says exactly that. -/
inductive Fault
  deriving DecidableEq, Repr

/-- The ways a step can refuse. -/
inductive Refusal where
  /-- Raised by an arm of `exec` whose instruction has no meaning yet.  No arm raises it in this model; safe, since
  a refused step proves nothing about a next state. -/
  | notModelled (mnemonic : String)
  deriving DecidableEq, Repr

/-- The block when it is first looked at.  It has no reset input and nothing to reset (R28, R117); what stands on
its inputs is the host's.  The inputs' values here are the model's choice: `FTZ` and `HAS_NATIVE` the spec's
recommended values (R7), `cmd` and `din` zero (DESIGN CHOICE, assumption log, entry 3).  `dout` is what R28 gives
for those inputs: `ENC.REF 0x00000000 => 0x0000` (DEDUCED, entry 4). -/
def State.reset : State where
  cmd := 0
  din := 0
  ftz := false
  dout := 0
  hasNative := false

end Sys2Proof.Machine
end

