-- ==== Sys2Proof/Machine/Operands.lean ====
section
/-! DEFINITION. Operand and result placement on the ports (R46, R47): the only operand forms there are. -/

namespace Sys2Proof.Machine

/-- The operand of an encode: the single pattern `f = din[31:0]` (R46). -/
def State.operandSingle (s : State) : Single := s.din

/-- The operand of a decode: the half pattern `h = din[15:0]`; `din[31:16]` is ignored (R46). -/
def State.operandHalf (s : State) : Half := s.din.extractLsb' 0 16

/-- The result word of an encode: `dout[15:0]` the half pattern, `dout[31:16]` zero (R46). -/
def placeHalf (hw : Half) : PortWord := hw.setWidth 32

/-- The result word of a decode: the single pattern (R46). -/
def placeSingle (f : Single) : PortWord := f

/-- `(S << 15) | w`: the sign copied onto a 16-bit magnitude word (R73, R83). -/
def withHalfSign (S : Bool) (w : Half) : Half := ((BitVec.ofBool S).setWidth 16 <<< 15) ||| w

/-- `(s << 31) | o`: the sign copied onto a 32-bit magnitude word (R68). -/
def withSingleSign (S : Bool) (o : Single) : Single := ((BitVec.ofBool S).setWidth 32 <<< 31) ||| o

end Sys2Proof.Machine
end

