-- ==== Sys2Proof/Machine/Ops.lean ====
section
/-! DEFINITION. The named operations: presenting a transaction, fetching its command, driving the answer; the
ieee754_rounder (R53 to R57) and the internal floating-point unit (R58 to R63, R66).

Taking an exception and returning from one: the block has neither (R104, R108, R109).  Memory: the block has none
(R30). -/

namespace Sys2Proof.Machine

/-! ### The ports -/

/-- Drive `dout` with the answer of the transaction; the block writes nothing else (R19, R119). -/
def State.answer (s : State) (d : PortWord) : State := { s with dout := d }

/-- The host presents a transaction on the input ports (R19, R20); `dout` stands until the block is evaluated. -/
def State.present (s : State) (t : Transaction) : State := { s with cmd := t.cmd, din := t.din, ftz := t.ftz }

/-- The instruction that the command on the port selects (R45).  There is no fetch from memory (R37). -/
def State.fetched (s : State) : Instr := decode s.cmd

/-- Put the command numbered `w` (R44: four wires, bit 0 the least significant) on the port `cmd`. -/
def State.driveCommand (s : State) (w : Nat) : State := { s with cmd := BitVec.ofNat 4 w }

/-! ### ieee754_rounder -/

/-- The three modes of R53. -/
inductive RoundMode where
  | halfUp
  | rne
  | trunc
  deriving DecidableEq, Repr

/-- `round_inc(mode, lsb, guard, sticky)` (R54). -/
def roundInc : RoundMode → Bool → Bool → Bool → Bool
  | .halfUp, _, guard, _ => guard
  | .rne, lsb, guard, sticky => guard && (sticky || lsb)
  | .trunc, _, _, _ => false

/-- What `split` returns (R55). -/
structure Split where
  /-- The kept quotient. -/
  q : Nat
  /-- "the bit immediately below the new LSB". -/
  guard : Bool
  /-- Some discarded bit below the guard bit is 1. -/
  sticky : Bool
  deriving DecidableEq, Repr

/-- `split(x, n)` for a shift count `n ≥ 1`, on mathematical integers (R55, R57). -/
def split (x n : Nat) : Split where
  q := x >>> n
  guard := (x >>> (n - 1)) &&& 1 == 1
  sticky := x &&& ((1 <<< (n - 1)) - 1) != 0

/-- `round_word(w, inc) = (w + inc) mod 2^16` (R56). -/
def roundWord (w : Half) (inc : Bool) : Half := w + (BitVec.ofBool inc).setWidth 16

/-- `rne_shr(x, n)` (R57): the integer nearest to `x / 2^n`, the even one on a tie. -/
def rneShr (x n : Nat) : Nat :=
  if n = 0 then x
  else (split x n).q + (roundInc .rne ((split x n).q % 2 == 1) (split x n).guard (split x n).sticky).toNat

/-! ### Internal floating-point unit

Each function is defined by R61 to R63 on a stated domain, which every caller keeps to (R65); outside it the Lean
function has some value that no operation reads (assumption log, entry 12). -/

/-- `scale_m112(a)` (R61): `val32(a) * 2^(-112)` in binary32; `FTZ` flushes an exact product below 2^-126 (R60). -/
def scaleM112 (ftz : Bool) (a : Single) : Single :=
  if singleExp a ≥ 113 then a - 0x38000000#32
  else if singleExp a = 0 then 0#32
  else if ftz then 0#32
  else BitVec.ofNat 32 (rneShr (0x800000 ||| singleMant a) (113 - singleExp a))

/-- The integer `q` of R62: the operand in units of 2^-24, rounded to nearest even. -/
def addHalfUnits (a : Single) : Nat :=
  if singleExp a = 0 then 0 else rneShr (0x800000 ||| singleMant a) (126 - singleExp a)

/-- `add_half(a)` (R62): `val32(a) + 0.5` in binary32. -/
def addHalf (a : Single) : Single := 0x3F000000#32 + BitVec.ofNat 32 (addHalfUnits a)

/-- The greatest `k < n` with bit `k` of `m` set, 0 if there is none. -/
def msbBelow (m : Nat) : Nat → Nat
  | 0 => 0
  | k + 1 => if m.testBit k then k else msbBelow m k

/-- `msb_index(m)` (R66) of a 10-bit `m`. -/
def msbIndex (m : Nat) : Nat := msbBelow m 10

/-- `sub_magic(o)` (R63): `val32(o) - 2^(-14)` in binary32. -/
def subMagic (o : Single) : Single :=
  let m := (o.extractLsb' 13 10).toNat
  if m = 0 then 0#32
  else
    let k := msbIndex m
    (BitVec.ofNat 32 (103 + k) <<< 23) ||| ((BitVec.ofNat 32 m <<< (23 - k)) &&& 0x7FFFFF#32)

end Sys2Proof.Machine
end

