-- ==== Sys2Proof/Machine/Decoder.lean ====
section
/-! DEFINITION. The decode operation, half to single: `DEC` (R67 to R70) and its top level (R99). -/

namespace Sys2Proof.Machine

/-- `DEC(h)` (R68). -/
def decodeHalf (h : Half) : Single :=
  let e := halfExp h
  let m := halfMant h
  let word := (BitVec.ofNat 32 (ebaDec e) <<< 23) ||| (BitVec.ofNat 32 m <<< 13)
  let o :=
    if e = 31 then word
    else if e ≠ 0 then word
    else subMagic word
  withSingleSign (halfSign h) o

/-- The datapath the source describes for `DEC` (R69); not a second definition, but one to be proved equal. -/
def decodeDatapath (h : Half) : Single :=
  let o := (h &&& 0x7FFF#16).setWidth 32 <<< 13
  let exp := o &&& 0x0F800000#32
  let o := o + 0x38000000#32
  let o :=
    if exp = 0x0F800000#32 then o + 0x38000000#32
    else if exp = 0#32 then subMagic (o + 0x00800000#32)
    else o
  o ||| ((h &&& 0x8000#16).setWidth 32 <<< 16)

/-- `DEC_top(h)` (R99), with the build's `HAS_NATIVE` and `NATIVE_DEC_NONFINITE` as arguments (R100). -/
def decodeTop (hasNative : Bool) (nonfinite : Half → Single) (h : Half) : Single :=
  if hasNative = false then decodeHalf h
  else if halfExp h ≠ 31 then decodeHalf h
  else nonfinite h

/-- `DEC` (R68, R99): the operand is `din[15:0]`; the field `cmd[2:0]` is ignored (R48). -/
def execDec (_variant : BitVec 3) (s : State) : Host.Outcome State Fault Refusal :=
  .next (s.answer (placeSingle (decodeTop s.hasNative Config.nativeDecNonfinite s.operandHalf)))

end Sys2Proof.Machine
end

