-- ==== Sys2Proof/Machine/EncoderReference.lean ====
section
/-! DEFINITION. The reference encoders, single to half: `ENC.REF`, `ENC.RTNE`, `ENC.FAST` (R73 to R81). -/

namespace Sys2Proof.Machine

/-- `0x7C00 | (0x200 if M != 0 else 0)`: infinity, or the one NaN word (R73 case (b)). -/
def nonfiniteWord (M : Nat) : Half := 0x7C00#16 ||| (if M ≠ 0 then 0x200#16 else 0#16)

/-- The rounder on a kept word: `round_word(w, round_inc(mode, w[0], guard, sticky))` (R73, R54, R56). -/
def roundKept (mode : RoundMode) (w : Half) (guard sticky : Bool) : Half :=
  roundWord w (roundInc mode (w.getLsbD 0) guard sticky)

/-- The shift of case (d) of R73: the hidden bit restored, shifted right by `14 - newexp`. -/
def subnormalSplit (E M : Nat) : Split := split (0x800000 ||| M) (14 - ebaEnc E).toNat

/-- Case (d), the word before an increment: at most 0x03FF (R77). -/
def subnormalKept (E M : Nat) : Half := BitVec.ofNat 16 (subnormalSplit E M).q

/-- Case (d) of R73: the kept word, rounded; at most 0x0400 (R77). -/
def subnormalWord (mode : RoundMode) (E M : Nat) : Half :=
  roundKept mode (subnormalKept E M) (subnormalSplit E M).guard (subnormalSplit E M).sticky

/-- Case (f), the word before an increment: `newexp` and the top 10 mantissa bits, at most 0x7BFF (R73, R77). -/
def normalKept (E M : Nat) : Half := BitVec.ofNat 16 (((ebaEnc E).toNat <<< 10) ||| (split M 13).q)

/-- Case (f) of R73: the kept word, rounded at bit 13; at most 0x7C00 (R77). -/
def normalWord (mode : RoundMode) (E M : Nat) : Half :=
  roundKept mode (normalKept E M) (split M 13).guard (split M 13).sticky

/-- The magnitude word of R73, cases (b) to (f), tested in the order of R80.  It is at most 0x7E00, so the increment
never carries into bit 15 and the sign may be merged before or after it (R77). -/
def refWord (mode : RoundMode) (E M : Nat) : Half :=
  match expClass E with
  | .isMax => nonfiniteWord M
  | .overflow => 0x7C00#16
  | .subnormal => subnormalWord mode E M
  | .tooSmall => 0#16
  | .normal => normalWord mode E M

/-- `enc_ref_family(f, mode, early_exit)` (R73); case (a) is the early exit. -/
def encRefFamily (f : Single) (mode : RoundMode) (earlyExit : Bool) : Half :=
  withHalfSign (singleSign f)
    (if earlyExit ∧ singleExp f = 0 then 0#16 else refWord mode (singleExp f) (singleMant f))

/-- `ENC.REF(f)` (R74). -/
def encRef (f : Single) : Half := encRefFamily f .halfUp true

/-- `ENC.RTNE(f)` (R75). -/
def encRtne (f : Single) : Half := encRefFamily f .rne true

/-- `ENC.FAST(f)` (R76). -/
def encFast (f : Single) : Half := encRefFamily f .halfUp false

/-- `ENC.REF` (R74). -/
def execEncRef (s : State) : Host.Outcome State Fault Refusal :=
  .next (s.answer (placeHalf (encRef s.operandSingle)))

/-- `ENC.RTNE` (R75). -/
def execEncRtne (s : State) : Host.Outcome State Fault Refusal :=
  .next (s.answer (placeHalf (encRtne s.operandSingle)))

/-- `ENC.FAST` (R76). -/
def execEncFast (s : State) : Host.Outcome State Fault Refusal :=
  .next (s.answer (placeHalf (encFast s.operandSingle)))

end Sys2Proof.Machine
end

