-- ==== Sys2Proof/Machine/EncoderMagic.lean ====
section
/-! DEFINITION. The "magic" encoders, single to half: `ENC.FAST2`, `ENC.FAST3`, `ENC.FAST3RTNE`, `ENC.APPROX`
(R83 to R92). -/

namespace Sys2Proof.Machine

/-- `if p > 0x0F800000: p <- 0x0F800000`, "clamp to half-infinity" (R84, R85). -/
def clampHalfInfinity (p : PortWord) : PortWord := if p > 0x0F800000#32 then 0x0F800000#32 else p

/-- `p >> 13`, "to read off the half bits" (R84, R85, R87, R89); the word is at most 0x7FFF (R83). -/
def readOffHalf (p : PortWord) : Half := (p >>> 13).setWidth 16

/-- `w | (sign >> 16)` with `sign = f & 0x80000000` (R85, R87, R89). -/
def mergeSign (f : Single) (w : Half) : Half := w ||| ((f &&& 0x80000000#32) >>> 16).setWidth 16

/-- `a = f ^ (f & 0x80000000)`, the magnitude (R85, R87, R89). -/
def magnitudeOf (f : Single) : Single := f ^^^ (f &&& 0x80000000#32)

/-- `0x7E00 if a > 0x7F800000 else 0x7C00` (R85, R87). -/
def nanOrInfinity (a : Single) : Half := if a > 0x7F800000#32 then 0x7E00#16 else 0x7C00#16

/-- `ENC.FAST2(f)` (R84); reads `FTZ`. -/
def encFast2 (ftz : Bool) (f : Single) : Half :=
  let a := f &&& 0x7FFFFFFF#32
  let w :=
    if singleExp a = 255 then nonfiniteWord (singleMant a)
    else readOffHalf (clampHalfInfinity (scaleM112 ftz (a &&& 0xFFFFF000#32) + 0x00001000#32))
  withHalfSign (singleSign f) w

/-- `ENC.FAST3(f)` (R85); reads `FTZ`. -/
def encFast3 (ftz : Bool) (f : Single) : Half :=
  let a := magnitudeOf f
  let w :=
    if a ≥ 0x7F800000#32 then nanOrInfinity a
    else readOffHalf (clampHalfInfinity (scaleM112 ftz (a &&& 0xFFFFF000#32) - 0xFFFFF000#32))
  mergeSign f w

/-- `ENC.FAST3RTNE(f)` (R87). -/
def encFast3Rtne (f : Single) : Half :=
  let a := magnitudeOf f
  let w :=
    if a ≥ 0x47800000#32 then nanOrInfinity a
    else if a < 0x38800000#32 then (addHalf a - 0x3F000000#32).setWidth 16
    else
      let odd := (a >>> 13) &&& 1#32
      readOffHalf (a + 0xC8000FFF#32 + odd)
  mergeSign f w

/-- `ENC.APPROX(f)` (R89); reads `FTZ`. -/
def encApprox (ftz : Bool) (f : Single) : Half :=
  let a := magnitudeOf f
  let p :=
    if a ≥ 0x7F800000#32 then a ^^^ 0x70000000#32
    else scaleM112 ftz (if a > 0x47800000#32 then 0x47800000#32 else a)
  mergeSign f (readOffHalf p)

/-- `ENC.FAST2` (R84). -/
def execEncFast2 (s : State) : Host.Outcome State Fault Refusal :=
  .next (s.answer (placeHalf (encFast2 s.ftz s.operandSingle)))

/-- `ENC.FAST3` (R85). -/
def execEncFast3 (s : State) : Host.Outcome State Fault Refusal :=
  .next (s.answer (placeHalf (encFast3 s.ftz s.operandSingle)))

/-- `ENC.FAST3RTNE` (R87). -/
def execEncFast3Rtne (s : State) : Host.Outcome State Fault Refusal :=
  .next (s.answer (placeHalf (encFast3Rtne s.operandSingle)))

/-- `ENC.APPROX` (R89). -/
def execEncApprox (s : State) : Host.Outcome State Fault Refusal :=
  .next (s.answer (placeHalf (encApprox s.ftz s.operandSingle)))

end Sys2Proof.Machine
end

