-- ==== Sys2Proof/Machine/Native.lean ====
section
/-! DEFINITION. Platform dispatch of the encode direction: `ENC.NATIVE` (R97, R98, R100). -/

namespace Sys2Proof.Machine

/-- `ENC.NATIVE(f)` (R98), with the build's `HAS_NATIVE` and `NATIVE_ENC_NONFINITE` as arguments (R100).
`DEFAULT_ENCODER` is `ENC.FAST3RTNE` (R7). -/
def encNative (hasNative : Bool) (nonfinite : Single → Half) (f : Single) : Half :=
  if hasNative = false then encFast3Rtne f
  else if singleExp f ≠ 255 then encRtne f
  else nonfinite f

/-- `ENC.NATIVE` (R98). -/
def execEncNative (s : State) : Host.Outcome State Fault Refusal :=
  .next (s.answer (placeHalf (encNative s.hasNative Config.nativeEncNonfinite s.operandSingle)))

end Sys2Proof.Machine
end

