-- ==== Sys2Proof/Machine/Dispatch.lean ====
section
/-! DEFINITION. One arm per constructor of Instr, each a direct call of its meaning. -/

namespace Sys2Proof.Machine

def exec (i : Instr) (s : State) : Host.Outcome State Fault Refusal :=
  match i with
  | .encRef => Sys2Proof.Machine.execEncRef s
  | .encRtne => Sys2Proof.Machine.execEncRtne s
  | .encFast => Sys2Proof.Machine.execEncFast s
  | .encFast2 => Sys2Proof.Machine.execEncFast2 s
  | .encFast3 => Sys2Proof.Machine.execEncFast3 s
  | .encFast3Rtne => Sys2Proof.Machine.execEncFast3Rtne s
  | .encApprox => Sys2Proof.Machine.execEncApprox s
  | .encNative => Sys2Proof.Machine.execEncNative s
  | .dec variant => Sys2Proof.Machine.execDec variant s

end Sys2Proof.Machine
end

