-- ==== Sys2Proof/Machine/Step.lean ====
section
/-! DEFINITION. One step: the block answers the transaction on its ports (R19).  Nothing stands around the
instruction: no program counter to advance (R22), no interrupt to take (R107). -/

namespace Sys2Proof.Machine

/-- "answer one transaction" (R19): decode the command on the port and run it. -/
def step (s : State) : Host.Outcome State Fault Refusal := exec s.fetched s

/-- The state with the command numbered `w` on the port `cmd`, which is where `step` takes its next instruction
from.  The block selects its operation by its input alone, so nothing else is set (assumption log, entry 7). -/
def State.withFetchWord (s : State) (_nbits w : Nat) : State := s.driveCommand w

end Sys2Proof.Machine
end

