-- ==== Sys2Proof/Machine/Block.lean ====
section
/-! DEFINITION. The function of the whole block, written as the spec's top level writes it (R101), with every open
parameter an argument (R7, R100).  The machine of Step.lean is to be proved to answer it. -/

namespace Sys2Proof.Machine

/-- `exec(cmd, din, FTZ)` (R101). -/
def blockExec (hasNative : Bool) (encNonfinite : Single → Half) (decNonfinite : Half → Single)
    (cmd : Command) (din : PortWord) (ftz : Bool) : PortWord :=
  if cmd.getLsbD 3 then decodeTop hasNative decNonfinite (din.extractLsb' 0 16)
  else
    let hw : Half :=
      match (cmd.extractLsb' 0 3).toNat with
      | 0 => encRef din
      | 1 => encRtne din
      | 2 => encFast din
      | 3 => encFast2 ftz din
      | 4 => encFast3 ftz din
      | 5 => encFast3Rtne din
      | 6 => encApprox ftz din
      | _ => encNative hasNative encNonfinite din
    hw.setWidth 32

/-- The block's answer to the transaction standing on the ports, under this build's parameter functions. -/
def State.blockAnswer (s : State) : PortWord :=
  blockExec s.hasNative Config.nativeEncNonfinite Config.nativeDecNonfinite s.cmd s.din s.ftz

end Sys2Proof.Machine
end

