-- ==== Sys2Proof/Machine/Harness.lean ====
section
/-! DEFINITION. The host presenting transactions one after another (R18, R19, R49; decision D22).  The copy of a
result to a later operand is the test harness's, not the block's. -/

namespace Sys2Proof.Machine

/-- One transaction: the host presents it and the block answers (R19). -/
def transact (s : State) (t : Transaction) : Host.Outcome State Fault Refusal := step (s.present t)

/-- The word a line puts on `din`: its literal, or `dout` of line `k` as it is (R49).  `none`: no such line. -/
def operandWord (results : List PortWord) : LineOperand → Option PortWord
  | .literal v => some v
  | .result 0 => none
  | .result (k + 1) => results[k]?

/-- Run lines after those that gave `results`; the answer is the list of all results, or `none` if a line names no
earlier one. -/
def runLines : List Line → List PortWord → State → Option (List PortWord)
  | [], results, _ => some results
  | l :: ls, results, s =>
    match operandWord results l.operand with
    | none => none
    | some d =>
      match transact s ⟨encode l.instr, d, l.ftz⟩ with
      | .next t => runLines ls (results ++ [t.dout]) t
      | .fault _ => none
      | .refused _ => none

end Sys2Proof.Machine
end

