-- ==== Sys2Proof/Safety.lean ====
section
/-! DEFINITION. What counts as a good state, in the terms the statements use. -/

namespace Sys2Proof.Safety

open Sys2Proof.Machine

/-- The output port shows the answer to what stands on the inputs (R20, R28). -/
abbrev Settled (s : State) : Prop := s.dout = s.blockAnswer

/-- What the output port may hold, whatever the operand: after an encode `dout[31:16]` is zero (R46); after a
decode whose result the spec fixes (R99) the low 13 mantissa bits are zero (R68). -/
abbrev OutputPlaced (s : State) : Prop :=
  (s.cmd.getLsbD 3 = false → s.dout.extractLsb' 16 16 = 0#16) ∧
  (s.cmd.getLsbD 3 = true → s.hasNative = false ∨ s.din.extractLsb' 10 5 ≠ 31#5 → s.dout.extractLsb' 0 13 = 0#13)

end Sys2Proof.Safety
end

