-- ==== Sys2Proof/Certificates/Slice0/Obligations.lean ====
section
/-! DEFINITION. The statements for the provers.  Each docstring names the rule of spec/ it formalises.

Reading aids.  `s.din.toNat / 2 ^ 31`, `s.din.toNat / 2 ^ 23 % 2 ^ 8` and `s.din.toNat % 2 ^ 23` are the fields `S`, `E`, `M`
of the single pattern on `din` (R38); `s.din.toNat / 2 ^ 15 % 2`, `s.din.toNat / 2 ^ 10 % 2 ^ 5` and
`s.din.toNat % 2 ^ 10` are the fields `s`, `e`, `m` of the half pattern in `din[15:0]` (R39, R46).  Magnitudes are
counted in units of 2^-149 (Machine/Formats.lean). -/

open Sys2Proof Sys2Proof.Machine Sys2Proof.Safety

/-! ### The machine: decoding, stepping, independence -/

/-- A step runs the instruction that the command on the port decodes to, with nothing around it: there is no program
counter to advance (R19, R22). -/
def Obligations.StepRunsFetchedInstruction : Prop :=
  ∀ (s : State) (i : Instr), decode s.cmd = i → i.wellFormed = true → step s = exec i s

/-- The table of R45, all 16 values of `cmd`.  That `DEC` keeps the bits `vvv` as a field of the instruction is the
model's choice (log entry 8): for R45 `v` is a bit the block ignores. -/
def Obligations.CommandTableDecodes : Prop :=
  decode 0b0000#4 = .encRef ∧ decode 0b0001#4 = .encRtne ∧ decode 0b0010#4 = .encFast ∧
  decode 0b0011#4 = .encFast2 ∧ decode 0b0100#4 = .encFast3 ∧ decode 0b0101#4 = .encFast3Rtne ∧
  decode 0b0110#4 = .encApprox ∧ decode 0b0111#4 = .encNative ∧
  decode 0b1000#4 = .dec 0b000#3 ∧ decode 0b1001#4 = .dec 0b001#3 ∧ decode 0b1010#4 = .dec 0b010#3 ∧
  decode 0b1011#4 = .dec 0b011#3 ∧ decode 0b1100#4 = .dec 0b100#3 ∧ decode 0b1101#4 = .dec 0b101#3 ∧
  decode 0b1110#4 = .dec 0b110#3 ∧ decode 0b1111#4 = .dec 0b111#3

/-- Decoding the command word of any well-formed instruction gives it back: no bit of `DIR` or `VARIANT` is dropped
(R44, R45).  `DEC` has a `VARIANT` to give back because the model's `Instr.dec` keeps the ignored bits (log entry
8). -/
def Obligations.DecodeEncodeRoundTrip : Prop :=
  ∀ i : Instr, i.wellFormed = true → decode (encode i) = i

/-- Every command word is the encoding of the instruction it decodes to: none is illegal or reserved (R48).  For
the eight spellings of `DEC` this holds because the model's `Instr.dec` keeps the ignored bits, which is the model's
choice (log entry 8). -/
def Obligations.EveryCommandIsAnEncoding : Prop :=
  ∀ c : Command, encode (decode c) = c ∧ (decode c).wellFormed = true

/-- The eight commands with `DIR` = 1 have one meaning: the field `VARIANT` is ignored there (R48). -/
def Obligations.DecodeSpellingsAgree : Prop :=
  ∀ (s : State) (c c' : Command), c.getLsbD 3 = true → c'.getLsbD 3 = true →
    ∃ t t', step { s with cmd := c } = .next t ∧ step { s with cmd := c' } = .next t' ∧ t'.dout = t.dout

/-- No command, operand, `FTZ` or build raises anything: every instruction and every step answers a next state
(R104, R116). -/
def Obligations.NothingEverStops : Prop :=
  (∀ (i : Instr) (s : State), ∃ t, exec i s = .next t) ∧ ∀ s : State, ∃ t, step s = .next t

/-- The step drives `dout` with the function of the whole block, written as R101 writes it, and changes nothing
else. -/
def Obligations.StepAnswersBlockFunction : Prop :=
  ∀ s : State, step s = .next { s with
    dout := blockExec s.hasNative Config.nativeEncNonfinite Config.nativeDecNonfinite s.cmd s.din s.ftz }

/-- The answer to a transaction is the block's function of that transaction and of the build, whatever stood on the
ports before: transactions do not interact (R19, R35). -/
def Obligations.TransactionsAreIndependent : Prop :=
  ∀ (s s' : State) (x : Transaction), s.hasNative = s'.hasNative →
    ∃ t, transact s x = .next t ∧ transact s' x = .next t ∧
      t.dout = blockExec s.hasNative Config.nativeEncNonfinite Config.nativeDecNonfinite x.cmd x.din x.ftz

/-- Repeating a transaction changes nothing and gives the same answer (R33). -/
def Obligations.RepeatingChangesNothing : Prop :=
  ∀ s t : State, step s = .next t → step t = .next t

/-- The frame of all nine instructions: the inputs and the build parameter are not written; `dout` is the only thing
an instruction drives, and there is no register, flag or memory to leave alone (R19, R21, R97, R119). -/
def Obligations.InstructionsDriveOnlyDout : Prop :=
  ∀ (i : Instr) (s t : State), exec i s = .next t →
    t.cmd = s.cmd ∧ t.din = s.din ∧ t.ftz = s.ftz ∧ t.hasNative = s.hasNative

/-- Every step keeps the output's form: after an encode `dout[31:16]` is zero (R46), and after a decode whose result
the spec fixes the low 13 mantissa bits are zero (R68). -/
def Obligations.OutputFormKept : Prop :=
  ∀ s t : State, OutputPlaced s → step s = .next t → OutputPlaced t

/-- The output's form holds at reset.  That `cmd` and `din` are zero there is the
model's choice (log entry 3), and that `dout` is zero is deduced from R28 for those inputs (log entry 4). -/
def Obligations.OutputFormAtReset : Prop := OutputPlaced State.reset

/-- After a step `dout` shows the answer to what stands on the inputs (R20). -/
def Obligations.OutputFollowsInputs : Prop :=
  ∀ s t : State, step s = .next t → Settled t

/-- The machine starts settled, with no step needed: R28's "From the first instant its inputs are valid the block's
output is `exec(cmd, din, FTZ)`", at the inputs the model chose (log entries 3 and 4). -/
def Obligations.ResetIsSettled : Prop := Settled State.reset ∧ step State.reset = .next State.reset

/-- `FTZ` is seen by `ENC.FAST2`, `ENC.FAST3` and `ENC.APPROX` only, and by them only when `din[30:23] ≤ 112`
(R102). -/
def Obligations.FtzSeenOnlyBelowNormals : Prop :=
  ∀ (s : State) (z : Bool),
    (s.cmd ≠ 0b0011#4 ∧ s.cmd ≠ 0b0100#4 ∧ s.cmd ≠ 0b0110#4) ∨ 113 ≤ s.din.toNat / 2 ^ 23 % 2 ^ 8 →
    ∃ t t', step s = .next t ∧ step { s with ftz := z } = .next t' ∧ t'.dout = t.dout

/-- A decode reads `din[15:0]` only: `din[31:16]` is ignored, whatever it holds (R46, R102). -/
def Obligations.DecodeIgnoresUpperOperand : Prop :=
  ∀ (s : State) (d : PortWord), s.cmd.getLsbD 3 = true → d.toNat % 2 ^ 16 = s.din.toNat % 2 ^ 16 →
    ∃ t t', step s = .next t ∧ step { s with din := d } = .next t' ∧ t'.dout = t.dout

/-- The build (`HAS_NATIVE` and both parameter functions, quantified over as R100 asks) is seen only by
`ENC.NATIVE` on exponent field 255 and by `DEC` on exponent field 31 (R97 to R102). -/
def Obligations.BuildSeenOnlyOnNonfinite : Prop :=
  ∀ (b b' : Bool) (ne ne' : Single → Half) (nd nd' : Half → Single) (c : Command) (d : PortWord) (z : Bool),
    (c.getLsbD 3 = false → c ≠ 0b0111#4 ∨ d.toNat / 2 ^ 23 % 2 ^ 8 ≠ 255) →
    (c.getLsbD 3 = true → d.toNat / 2 ^ 10 % 2 ^ 5 ≠ 31) →
    blockExec b ne nd c d z = blockExec b' ne' nd' c d z

/-! ### The sub-blocks -/

/-- `eba_enc` subtracts 112, stays in range, and the reference encoders' three comparisons are comparisons of `E`
(R50). -/
def Obligations.BiasAdjusterEncode : Prop :=
  ∀ E : Nat, E ≤ 255 →
    ebaEnc E = (E : Int) - 112 ∧ -112 ≤ ebaEnc E ∧ ebaEnc E ≤ 143 ∧
    (31 ≤ ebaEnc E ↔ 143 ≤ E) ∧ (ebaEnc E ≤ 0 ↔ E ≤ 112) ∧
    (14 - ebaEnc E ≤ 24 ↔ -10 ≤ ebaEnc E) ∧ (14 - ebaEnc E ≤ 24 ↔ 102 ≤ E) ∧
    14 - ebaEnc E = 126 - (E : Int)

/-- The three modes of `round_inc`, every input (R54). -/
def Obligations.RoundIncrementTable : Prop :=
  ∀ lsb guard sticky : Bool,
    roundInc .halfUp lsb guard sticky = guard ∧
    roundInc .rne lsb guard sticky = (guard && (sticky || lsb)) ∧
    roundInc .trunc lsb guard sticky = false

/-- `split` gives the quotient, the bit below it and whether anything lies below that; so the discarded bits are
above, at or below halfway as R55 says. -/
def Obligations.SplitSummarisesDiscardedBits : Prop :=
  ∀ x n : Nat, 1 ≤ n →
    (split x n).q = x / 2 ^ n ∧
    (split x n).guard = x.testBit (n - 1) ∧
    ((split x n).sticky = true ↔ x % 2 ^ (n - 1) ≠ 0) ∧
    (n = 1 → (split x n).sticky = false) ∧
    (2 ^ (n - 1) < x % 2 ^ n ↔ (split x n).guard = true ∧ (split x n).sticky = true) ∧
    (x % 2 ^ n = 2 ^ (n - 1) ↔ (split x n).guard = true ∧ (split x n).sticky = false) ∧
    (x % 2 ^ n < 2 ^ (n - 1) ↔ (split x n).guard = false)

/-- `rne_shr(x, n)` is the integer nearest to `x / 2^n`, the even one on a tie, with what R57 says of counts above 32
and its three consequences for a 24-bit significand (which the spec marks as derived). -/
def Obligations.RneShrIsNearestEven : Prop :=
  (∀ x n : Nat,
    2 * ((rneShr x n * 2 ^ n : Nat) - (x : Int)).natAbs ≤ 2 ^ n ∧
    (n ≠ 0 → 2 * ((rneShr x n * 2 ^ n : Nat) - (x : Int)).natAbs = 2 ^ n → rneShr x n % 2 = 0)) ∧
  (∀ x : Nat, rneShr x 0 = x) ∧
  (∀ x n : Nat, x < 2 ^ 32 → 32 < n → (split x n).q = 0 ∧ (split x n).guard = false ∧ rneShr x n = 0) ∧
  (∀ x n : Nat, 0x800000 ≤ x → x ≤ 0xFFFFFF → 25 ≤ n → rneShr x n = 0) ∧
  (∀ x : Nat, 0x800000 ≤ x → x ≤ 0xFFFFFF → rneShr x 24 = if x = 0x800000 then 0 else 1) ∧
  rneShr 0xFFFFFF 1 = 0x800000

/-- `scale_m112` is multiplication by 2^-112 in binary32, rounded to nearest even (R58, R59, R61): exact when the
product is at least 2^-126; otherwise, with `FTZ` 0, the nearest multiple of 2^-149, the even one on a tie; with
`FTZ` 1 such a product becomes +0, the test being made on the exact product (R60). -/
def Obligations.ScaleIsRoundedMultiplication : Prop :=
  ∀ (z : Bool) (a : Single), a.toNat ≤ 0x7F7FFFFF →
    let x := singleUnits (singleExp a) (singleMant a)
    let p := scaleM112 z a
    let u := singleUnits (singleExp p) (singleMant p)
    p.toNat < 0x7F800000 ∧
    (2 ^ 23 * 2 ^ 112 ≤ x → u * 2 ^ 112 = x) ∧
    (x < 2 ^ 23 * 2 ^ 112 → z = true → p = 0#32) ∧
    (x < 2 ^ 23 * 2 ^ 112 → z = false →
      2 * ((u * 2 ^ 112 : Nat) - (x : Int)).natAbs ≤ 2 ^ 112 ∧
      (2 * ((u * 2 ^ 112 : Nat) - (x : Int)).natAbs = 2 ^ 112 → u % 2 = 0))

/-- `add_half` is the addition of 0.5 in binary32 on its domain, rounded to nearest even (R58, R59, R62): the result
lies in [0.5, 0.5 + 2^-14], where singles are spaced 2^-24 apart. -/
def Obligations.AddHalfIsRoundedAddition : Prop :=
  ∀ a : Single, a.toNat < 0x38800000 →
    0x3F000000 ≤ (addHalf a).toNat ∧ (addHalf a).toNat ≤ 0x3F000400 ∧
    ∃ u, val32 (addHalf a) = .finite false u ∧
      2 * ((u : Int) - (2 ^ 148 + singleUnits (singleExp a) (singleMant a) : Nat)).natAbs ≤ 2 ^ 125 ∧
      (2 * ((u : Int) - (2 ^ 148 + singleUnits (singleExp a) (singleMant a) : Nat)).natAbs = 2 ^ 125 →
        (addHalf a).toNat % 2 = 0)

/-- `sub_magic` is the exact subtraction of 2^-14 (which is 2^135 units) on its domain (R63). -/
def Obligations.SubMagicIsExactSubtraction : Prop :=
  ∀ m : Nat, m < 2 ^ 10 →
    ∃ u v, val32 (0x38800000#32 ||| (BitVec.ofNat 32 m <<< 13)) = .finite false u ∧
      val32 (subMagic (0x38800000#32 ||| (BitVec.ofNat 32 m <<< 13))) = .finite false v ∧ v + 2 ^ 135 = u

/-! ### DEC -/

/-- `DEC` on every operand whose result the spec fixes, field by field (R68, R99): infinities and NaNs keep their
payload, normals are rebiased by 112, a zero keeps its sign, a subnormal is renormalised on its leading 1. -/
def Obligations.DecAnswer : Prop :=
  ∀ (s : State) (v : BitVec 3),
    let sg := s.din.toNat / 2 ^ 15 % 2
    let e := s.din.toNat / 2 ^ 10 % 2 ^ 5
    let m := s.din.toNat % 2 ^ 10
    s.hasNative = false ∨ e ≠ 31 →
    exec (.dec v) s = .next { s with dout := BitVec.ofNat 32 (sg * 2 ^ 31 +
      if e = 31 then 255 * 2 ^ 23 + m * 2 ^ 13
      else if e ≠ 0 then (e + 112) * 2 ^ 23 + m * 2 ^ 13
      else if m = 0 then 0
      else (103 + Nat.log2 m) * 2 ^ 23 + (m - 2 ^ Nat.log2 m) * 2 ^ (23 - Nat.log2 m)) }

/-- "for every `h` that is not a NaN, `val32(DEC(h)) = val16(h)`, with the sign of zero kept" (R68): widening is
exact.  With the native unit this is fixed for finite operands only (R99). -/
def Obligations.DecIsExact : Prop :=
  ∀ (s : State) (v : BitVec 3), val16 (s.din.extractLsb' 0 16) ≠ .nan →
    s.hasNative = false ∨ s.din.toNat / 2 ^ 10 % 2 ^ 5 ≠ 31 →
    ∃ t, exec (.dec v) s = .next t ∧ val32 t.dout = val16 (s.din.extractLsb' 0 16)

/-- `DEC` maps categories to the same categories, except that subnormal halves become normal singles; a signaling
NaN is not quieted (R70). -/
def Obligations.DecKeepsCategory : Prop :=
  ∀ (s : State) (v : BitVec 3), s.hasNative = false ∨ s.din.toNat / 2 ^ 10 % 2 ^ 5 ≠ 31 →
    ∃ t, exec (.dec v) s = .next t ∧
      cat32 t.dout = if cat16 (s.din.extractLsb' 0 16) = .subnormal then .normal
        else cat16 (s.din.extractLsb' 0 16)

/-- With the native unit, `DEC` of an infinity or a NaN is the parameter function's value, about which nothing is
assumed (R99, R100). -/
def Obligations.DecNativeNonfinite : Prop :=
  ∀ (s : State) (v : BitVec 3), s.hasNative = true → s.din.toNat / 2 ^ 10 % 2 ^ 5 = 31 →
    exec (.dec v) s = .next { s with dout := Config.nativeDecNonfinite (s.din.extractLsb' 0 16) }

/-- "The datapath and rule R68 give the same result for all 65536 operands" (R69). -/
def Obligations.DecDatapathAgrees : Prop := ∀ h : Half, decodeDatapath h = decodeHalf h

/-- `DEC` is injective: different operands give different results (R70). -/
def Obligations.DecIsInjective : Prop := ∀ h h' : Half, decodeHalf h = decodeHalf h' → h = h'

/-- The results of `DEC` are exactly the single patterns of R70's last item. -/
def Obligations.DecImage : Prop :=
  ∀ f : Single, (∃ h, decodeHalf h = f) ↔
    (f.toNat % 2 ^ 13 = 0 ∧
      (f.toNat % 2 ^ 31 = 0 ∨ (113 ≤ singleExp f ∧ singleExp f ≤ 142) ∨
        (103 ≤ singleExp f ∧ singleExp f ≤ 112 ∧ f.toNat % 2 ^ (13 + (113 - singleExp f)) = 0) ∨
        singleExp f = 255))

/-! ### The reference encoders -/

/-- `ENC.REF` on every operand, case by case on the exponent field (R73, R74): one NaN word, overflow to infinity,
ties up in magnitude, signed zero below. -/
def Obligations.EncRefAnswer : Prop :=
  ∀ s : State,
    let S := s.din.toNat / 2 ^ 31
    let E := s.din.toNat / 2 ^ 23 % 2 ^ 8
    let M := s.din.toNat % 2 ^ 23
    exec .encRef s = .next { s with dout := BitVec.ofNat 32 (S * 2 ^ 15 +
      if E = 255 then (if M = 0 then 0x7C00 else 0x7E00)
      else if 143 ≤ E then 0x7C00
      else if 113 ≤ E then (E - 112) * 2 ^ 10 + M / 2 ^ 13 + M / 2 ^ 12 % 2
      else if 102 ≤ E then (2 ^ 23 + M) / 2 ^ (126 - E) + (2 ^ 23 + M) / 2 ^ (125 - E) % 2
      else 0) }

/-- `ENC.RTNE` on every operand (R73, R75): as `ENC.REF`, but the word is incremented only when the discarded bits
are above halfway, or at halfway with an odd kept word. -/
def Obligations.EncRtneAnswer : Prop :=
  ∀ s : State,
    let S := s.din.toNat / 2 ^ 31
    let E := s.din.toNat / 2 ^ 23 % 2 ^ 8
    let M := s.din.toNat % 2 ^ 23
    exec .encRtne s = .next { s with dout := BitVec.ofNat 32 (S * 2 ^ 15 +
      if E = 255 then (if M = 0 then 0x7C00 else 0x7E00)
      else if 143 ≤ E then 0x7C00
      else if 113 ≤ E then
        (E - 112) * 2 ^ 10 + M / 2 ^ 13 +
          (if 2 ^ 12 < M % 2 ^ 13 ∨ (M % 2 ^ 13 = 2 ^ 12 ∧ M / 2 ^ 13 % 2 = 1) then 1 else 0)
      else if 102 ≤ E then
        (2 ^ 23 + M) / 2 ^ (126 - E) +
          (if 2 ^ (125 - E) < (2 ^ 23 + M) % 2 ^ (126 - E) ∨
              ((2 ^ 23 + M) % 2 ^ (126 - E) = 2 ^ (125 - E) ∧ (2 ^ 23 + M) / 2 ^ (126 - E) % 2 = 1)
            then 1 else 0)
      else 0) }

/-- `ENC.FAST(f) = ENC.REF(f)` for every one of the 2^32 operands (R78). -/
def Obligations.EncFastEqualsRef : Prop :=
  ∀ s : State, ∃ t, exec .encFast s = .next t ∧ exec .encRef s = .next t

/-- `ENC.RTNE` differs from `ENC.REF` on exactly the exact ties with an even kept word, where `ENC.REF` is one
greater (R75). -/
def Obligations.RtneDiffersOnEvenTies : Prop :=
  ∀ s : State, ∃ t t', exec .encRef s = .next t ∧ exec .encRtne s = .next t' ∧
    let E := s.din.toNat / 2 ^ 23 % 2 ^ 8
    let M := s.din.toNat % 2 ^ 23
    let tie := (113 ≤ E ∧ E ≤ 142 ∧ M % 2 ^ 13 = 2 ^ 12 ∧ M / 2 ^ 13 % 2 = 0) ∨
      (102 ≤ E ∧ E ≤ 112 ∧ (2 ^ 23 + M) % 2 ^ (126 - E) = 2 ^ (125 - E) ∧ (2 ^ 23 + M) / 2 ^ (126 - E) % 2 = 0)
    (tie → t.dout.toNat = t'.dout.toNat + 1) ∧ (¬tie → t.dout = t'.dout)

/-- R77 (which the spec marks as derived): before an increment the word is at most 0x03FF in case (d) and 0x7BFF in case
(f), after it at most 0x0400 and 0x7C00, in the other cases one of three words, and never above 0x7E00; and on a kept
word of either case the sign may be merged before or after the increment, in every mode. -/
def Obligations.MagnitudeWordNeverReachesSign : Prop :=
  ∀ (mode : RoundMode) (E M : Nat), E ≤ 255 → M < 2 ^ 23 →
    (102 ≤ E ∧ E ≤ 112 → (subnormalKept E M).toNat ≤ 0x03FF ∧ (refWord mode E M).toNat ≤ 0x0400 ∧
      refWord mode E M = subnormalWord mode E M ∧
      ∀ S guard sticky, withHalfSign S (roundKept mode (subnormalKept E M) guard sticky) =
        roundKept mode (withHalfSign S (subnormalKept E M)) guard sticky) ∧
    (113 ≤ E ∧ E ≤ 142 → (normalKept E M).toNat ≤ 0x7BFF ∧ (refWord mode E M).toNat ≤ 0x7C00 ∧
      refWord mode E M = normalWord mode E M ∧
      ∀ S guard sticky, withHalfSign S (roundKept mode (normalKept E M) guard sticky) =
        roundKept mode (withHalfSign S (normalKept E M)) guard sticky) ∧
    (E ≤ 101 ∨ 143 ≤ E →
      refWord mode E M = 0x0000#16 ∨ refWord mode E M = 0x7C00#16 ∨ refWord mode E M = 0x7E00#16) ∧
    (refWord mode E M).toNat ≤ 0x7E00

/-- `ENC.RTNE` is the correctly rounded conversion on finite operands (R79): 0x7C00 from 65536 up; otherwise the
word whose number is nearest to the operand's magnitude, the even one on a tie; the sign is the operand's. -/
def Obligations.EncRtneIsNearestEven : Prop :=
  ∀ s : State, singleExp s.din ≠ 255 →
    ∃ t, exec .encRtne s = .next t ∧ t.dout.toNat / 2 ^ 15 = s.din.toNat / 2 ^ 31 ∧
      let v := singleUnits (singleExp s.din) (singleMant s.din)
      let w := t.dout.toNat % 2 ^ 15
      let g : Nat → Int := fun w => (halfUnits (w / 2 ^ 10) (w % 2 ^ 10) : Nat)
      (2 ^ 165 ≤ v → w = 0x7C00) ∧
      (v < 2 ^ 165 → w ≤ 0x7C00 ∧ ∀ w' ≤ 0x7C00, (g w - v).natAbs ≤ (g w' - v).natAbs ∧
        (w' ≠ w → (g w' - v).natAbs = (g w - v).natAbs → w % 2 = 0))

/-- `ENC.REF` (and so `ENC.FAST`) rounds to nearest with ties away from zero on finite operands (R79). -/
def Obligations.EncRefIsNearestAway : Prop :=
  ∀ s : State, singleExp s.din ≠ 255 →
    ∃ t, exec .encRef s = .next t ∧ t.dout.toNat / 2 ^ 15 = s.din.toNat / 2 ^ 31 ∧
      let v := singleUnits (singleExp s.din) (singleMant s.din)
      let w := t.dout.toNat % 2 ^ 15
      let g : Nat → Int := fun w => (halfUnits (w / 2 ^ 10) (w % 2 ^ 10) : Nat)
      (2 ^ 165 ≤ v → w = 0x7C00) ∧
      (v < 2 ^ 165 → w ≤ 0x7C00 ∧ ∀ w' ≤ 0x7C00, (g w - v).natAbs ≤ (g w' - v).natAbs ∧
        (w' ≠ w → (g w' - v).natAbs = (g w - v).natAbs → w' < w))

/-- "the result is infinite exactly when `v ≥ 65520`; it is a zero exactly when `v < 2^−25` (`ENC.REF`) or
`v ≤ 2^−25` (`ENC.RTNE`)" (R79); 65520 is `65520 * 2^149` units and 2^-25 is 2^124 units. -/
def Obligations.InfinityAndZeroThresholds : Prop :=
  ∀ s : State, singleExp s.din ≠ 255 →
    ∃ t t', exec .encRef s = .next t ∧ exec .encRtne s = .next t' ∧
      let v := singleUnits (singleExp s.din) (singleMant s.din)
      (t.dout.toNat % 2 ^ 15 = 0x7C00 ↔ 65520 * 2 ^ 149 ≤ v) ∧
      (t'.dout.toNat % 2 ^ 15 = 0x7C00 ↔ 65520 * 2 ^ 149 ≤ v) ∧
      (t.dout.toNat % 2 ^ 15 = 0 ↔ v < 2 ^ 124) ∧ (t'.dout.toNat % 2 ^ 15 = 0 ↔ v ≤ 2 ^ 124)

/-- Round trip through the reference family (R81): a half that is not a NaN comes back unchanged; a NaN collapses to
the one NaN word with its sign, which is the operand itself only for 0x7E00 and 0xFE00. -/
def Obligations.RoundTripReference : Prop :=
  ∀ h : Half,
    (val16 h ≠ .nan → encRef (decodeHalf h) = h ∧ encRtne (decodeHalf h) = h ∧ encFast (decodeHalf h) = h) ∧
    (val16 h = .nan →
      encRef (decodeHalf h) = (h &&& 0x8000#16) ||| 0x7E00#16 ∧
      encRtne (decodeHalf h) = (h &&& 0x8000#16) ||| 0x7E00#16 ∧
      encFast (decodeHalf h) = (h &&& 0x8000#16) ||| 0x7E00#16 ∧
      ((h &&& 0x8000#16) ||| 0x7E00#16 = h ↔ h = 0x7E00#16 ∨ h = 0xFE00#16))

/-! ### The magic encoders -/

/-- The closed form of `ENC.FAST2` and `ENC.FAST3` (R86): with `FTZ` 0 both are `ENC.REF`; with `FTZ` 1 both give a
signed zero when `E ≤ 112` and are `ENC.REF` otherwise. -/
def Obligations.Fast2Fast3ClosedForm : Prop :=
  ∀ s : State,
    let S := s.din.toNat / 2 ^ 31
    let E := s.din.toNat / 2 ^ 23 % 2 ^ 8
    (s.ftz = false ∨ 113 ≤ E →
      ∃ t, exec .encFast2 s = .next t ∧ exec .encFast3 s = .next t ∧ exec .encRef s = .next t) ∧
    (s.ftz = true ∧ E ≤ 112 →
      exec .encFast2 s = .next { s with dout := BitVec.ofNat 32 (S * 2 ^ 15) } ∧
      exec .encFast3 s = .next { s with dout := BitVec.ofNat 32 (S * 2 ^ 15) })

/-- `ENC.FAST3RTNE(f) = ENC.RTNE(f)` for every one of the 2^32 operands, under either value of `FTZ` (R88,
which the spec marks as derived).  On infinities and NaNs it is only the spec's decision D10 that makes them equal (log
entry 16). -/
def Obligations.Fast3RtneEqualsRtne : Prop :=
  ∀ s : State, ∃ t, exec .encFast3Rtne s = .next t ∧ exec .encRtne s = .next t

/-- The closed form of `ENC.APPROX` (R90's table): NaN payload truncated, overflow only from 65536 up, pure
truncation in the normal range, and in the half-subnormal range the truncation of the unit's own rounding, or zero
under `FTZ`. -/
def Obligations.EncApproxAnswer : Prop :=
  ∀ s : State,
    let S := s.din.toNat / 2 ^ 31
    let E := s.din.toNat / 2 ^ 23 % 2 ^ 8
    let M := s.din.toNat % 2 ^ 23
    let x := 2 ^ 23 + M
    exec .encApprox s = .next { s with dout := BitVec.ofNat 32 (S * 2 ^ 15 +
      if E = 255 then 0x7C00 + M / 2 ^ 13
      else if 0x47800000 < E * 2 ^ 23 + M then 0x7C00
      else if 113 ≤ E then (E - 112) * 2 ^ 10 + M / 2 ^ 13
      else if E = 0 ∨ s.ftz = true then 0
      else (x / 2 ^ (113 - E) +
        (if 2 ^ (112 - E) < x % 2 ^ (113 - E) ∨ (x % 2 ^ (113 - E) = 2 ^ (112 - E) ∧ x / 2 ^ (113 - E) % 2 = 1)
          then 1 else 0)) / 2 ^ 13) }

/-- `ENC.APPROX` on a NaN (R90, R105): with its top 10 mantissa bits zero it becomes an infinity, and then it was a
signaling NaN; every other NaN stays a NaN of the same kind with its top 10 payload bits. -/
def Obligations.EncApproxOnNaN : Prop :=
  ∀ s : State, (cat32 s.din).isNaN = true →
    ∃ t, exec .encApprox s = .next t ∧
      (s.din.toNat % 2 ^ 23 < 2 ^ 13 →
        cat32 s.din = .signalingNaN ∧ cat16 (t.dout.extractLsb' 0 16) = .infinity) ∧
      (2 ^ 13 ≤ s.din.toNat % 2 ^ 23 →
        cat16 (t.dout.extractLsb' 0 16) = cat32 s.din ∧
        t.dout.toNat % 2 ^ 10 = s.din.toNat % 2 ^ 23 / 2 ^ 13)

/-- NaN-payload collapse (R105): every NaN becomes `(S << 15) | 0x7E00` in the six portable encoders named there,
and in `ENC.NATIVE` when `HAS_NATIVE` is false. -/
def Obligations.NaNPayloadCollapses : Prop :=
  ∀ (s : State) (i : Instr), (cat32 s.din).isNaN = true →
    i = .encRef ∨ i = .encRtne ∨ i = .encFast ∨ i = .encFast2 ∨ i = .encFast3 ∨ i = .encFast3Rtne ∨
      (i = .encNative ∧ s.hasNative = false) →
    exec i s = .next { s with dout := BitVec.ofNat 32 (s.din.toNat / 2 ^ 31 * 2 ^ 15 + 0x7E00) }

/-- Round trip through the magic family (R91): unchanged, but for the `FTZ` = 1 exception on subnormals, where three
of the encoders give a signed zero; a NaN keeps its payload through `ENC.APPROX` and collapses in the others. -/
def Obligations.RoundTripMagic : Prop :=
  ∀ (h : Half) (z : Bool),
    (val16 h ≠ .nan → encFast3Rtne (decodeHalf h) = h) ∧
    (val16 h ≠ .nan → z = false ∨ cat16 h ≠ .subnormal →
      encFast2 z (decodeHalf h) = h ∧ encFast3 z (decodeHalf h) = h ∧ encApprox z (decodeHalf h) = h) ∧
    (z = true → cat16 h = .subnormal →
      encFast2 z (decodeHalf h) = h &&& 0x8000#16 ∧ encFast3 z (decodeHalf h) = h &&& 0x8000#16 ∧
      encApprox z (decodeHalf h) = h &&& 0x8000#16) ∧
    (val16 h = .nan →
      encApprox z (decodeHalf h) = h ∧
      encFast2 z (decodeHalf h) = (h &&& 0x8000#16) ||| 0x7E00#16 ∧
      encFast3 z (decodeHalf h) = (h &&& 0x8000#16) ||| 0x7E00#16 ∧
      encFast3Rtne (decodeHalf h) = (h &&& 0x8000#16) ||| 0x7E00#16)

/-! ### ENC.NATIVE -/

/-- Without the native unit `ENC.NATIVE` is `ENC.FAST3RTNE` (R98). -/
def Obligations.EncNativePortable : Prop :=
  ∀ s : State, s.hasNative = false →
    ∃ t, exec .encNative s = .next t ∧ exec .encFast3Rtne s = .next t

/-- "for all finite `f`, `reference_rtne(f) == fast3_rtne(f) == native(f)`", whatever `HAS_NATIVE` is (R98). -/
def Obligations.EncNativeFinite : Prop :=
  ∀ s : State, s.din.toNat / 2 ^ 23 % 2 ^ 8 ≠ 255 →
    ∃ t, exec .encNative s = .next t ∧ exec .encRtne s = .next t ∧ exec .encFast3Rtne s = .next t

/-- With the native unit, `ENC.NATIVE` of an infinity or a NaN is the parameter function's value, zero-extended
(R98, R100, R46). -/
def Obligations.EncNativeNonfinite : Prop :=
  ∀ s : State, s.hasNative = true → s.din.toNat / 2 ^ 23 % 2 ^ 8 = 255 →
    exec .encNative s = .next { s with dout := (Config.nativeEncNonfinite s.din).setWidth 32 }
end

