-- ==== Sys2Proof/Laws/Formats.lean ====
section
/-! SUPPORT. The fields of the two formats as arithmetic, and what the placement operations do. -/

namespace Sys2Proof.Machine

theorem singleExp_eq (f : Single) : singleExp f = f.toNat / 2 ^ 23 % 2 ^ 8 := by
  simp [singleExp, Nat.shiftRight_eq_div_pow]

theorem singleMant_eq (f : Single) : singleMant f = f.toNat % 2 ^ 23 := by
  simp [singleMant]

theorem singleSign_eq (f : Single) : (singleSign f).toNat = f.toNat / 2 ^ 31 := by
  have h := f.isLt
  simp only [singleSign, BitVec.getLsbD, Nat.testBit_eq_decide_div_mod_eq]
  rcases (show f.toNat / 2 ^ 31 = 0 ∨ f.toNat / 2 ^ 31 = 1 by omega) with h0 | h0 <;> rw [h0] <;> rfl

theorem singleExp_lt (f : Single) : singleExp f < 256 := by
  rw [singleExp_eq]; omega

theorem singleMant_lt (f : Single) : singleMant f < 2 ^ 23 := by
  rw [singleMant_eq]; omega

/-- A single pattern is its three fields side by side (R38). -/
theorem single_fields (f : Single) :
    f.toNat = (singleSign f).toNat * 2 ^ 31 + singleExp f * 2 ^ 23 + singleMant f := by
  have := f.isLt
  rw [singleSign_eq, singleExp_eq, singleMant_eq]; omega

theorem halfExp_eq (h : Half) : halfExp h = h.toNat / 2 ^ 10 % 2 ^ 5 := by
  simp [halfExp, Nat.shiftRight_eq_div_pow]

theorem halfMant_eq (h : Half) : halfMant h = h.toNat % 2 ^ 10 := by
  simp [halfMant]

theorem halfSign_eq (h : Half) : (halfSign h).toNat = h.toNat / 2 ^ 15 := by
  have hl := h.isLt
  simp only [halfSign, BitVec.getLsbD, Nat.testBit_eq_decide_div_mod_eq]
  rcases (show h.toNat / 2 ^ 15 = 0 ∨ h.toNat / 2 ^ 15 = 1 by omega) with h0 | h0 <;> rw [h0] <;> rfl

theorem halfExp_lt (h : Half) : halfExp h < 32 := by
  rw [halfExp_eq]; omega

theorem halfMant_lt (h : Half) : halfMant h < 2 ^ 10 := by
  rw [halfMant_eq]; omega

/-- A half pattern is its three fields side by side (R39). -/
theorem half_fields (h : Half) :
    h.toNat = (halfSign h).toNat * 2 ^ 15 + halfExp h * 2 ^ 10 + halfMant h := by
  have := h.isLt
  rw [halfSign_eq, halfExp_eq, halfMant_eq]; omega

/-- The sign OR-ed onto a magnitude word is the sign added above it (R73, R77). -/
theorem withHalfSign_toNat (S : Bool) (w : Half) (hw : w.toNat < 2 ^ 15) :
    (withHalfSign S w).toNat = S.toNat * 2 ^ 15 + w.toNat := by
  cases S
  · simp [withHalfSign]
  · simp only [withHalfSign, BitVec.toNat_or]
    have := Nat.two_pow_add_eq_or_of_lt hw 1
    simp only [Nat.mul_one] at this
    simpa using this.symm

/-- The same on 32 bits (R68). -/
theorem withSingleSign_toNat (S : Bool) (o : Single) (ho : o.toNat < 2 ^ 31) :
    (withSingleSign S o).toNat = S.toNat * 2 ^ 31 + o.toNat := by
  cases S
  · simp [withSingleSign]
  · simp only [withSingleSign, BitVec.toNat_or]
    have := Nat.two_pow_add_eq_or_of_lt ho 1
    simp only [Nat.mul_one] at this
    simpa using this.symm

/-- An encode result is the half pattern as a number: `dout[31:16]` is zero (R46). -/
@[simp] theorem placeHalf_toNat (hw : Half) : (placeHalf hw).toNat = hw.toNat := by
  simp only [placeHalf, BitVec.toNat_setWidth]; omega

theorem placeHalf_inj (a b : Half) (h : placeHalf a = placeHalf b) : a = b := by
  have := congrArg BitVec.toNat h
  simpa [BitVec.toNat_inj] using this

@[simp] theorem placeSingle_eq (f : Single) : placeSingle f = f := rfl

end Sys2Proof.Machine
end

