-- ==== Sys2Proof/Laws/Ops.lean ====
section
/-! SUPPORT. For each shared operation, what it does in arithmetic; the proofs above cite these and do not unfold
the operation. -/

namespace Sys2Proof.Machine

/-! ### exponent_bias_adjuster -/

/-- `eba_enc` subtracts 112 (R50). -/
theorem ebaEnc_eq (E : Nat) : ebaEnc E = (E : Int) - 112 := by
  unfold ebaEnc; omega

theorem expClass_isMax : expClass 255 = .isMax := rfl

theorem expClass_overflow {E : Nat} (h : 143 ≤ E) (h' : E < 255) : expClass E = .overflow := by
  have e := ebaEnc_eq E
  unfold expClass
  rw [if_neg (by omega), if_pos (by omega)]

theorem expClass_normal {E : Nat} (h : 113 ≤ E) (h' : E ≤ 142) : expClass E = .normal := by
  have e := ebaEnc_eq E
  unfold expClass
  rw [if_neg (by omega), if_neg (by omega), if_neg (by omega)]

theorem expClass_subnormal {E : Nat} (h : 102 ≤ E) (h' : E ≤ 112) : expClass E = .subnormal := by
  have e := ebaEnc_eq E
  unfold expClass
  rw [if_neg (by omega), if_neg (by omega), if_pos (by omega), if_pos (by omega)]

theorem expClass_tooSmall {E : Nat} (h : E ≤ 101) : expClass E = .tooSmall := by
  have e := ebaEnc_eq E
  unfold expClass
  rw [if_neg (by omega), if_neg (by omega), if_pos (by omega), if_neg (by omega)]

/-! ### ieee754_rounder -/

theorem split_q (x n : Nat) : (split x n).q = x / 2 ^ n := Nat.shiftRight_eq_div_pow x n

theorem split_guard (x n : Nat) : (split x n).guard = decide (x / 2 ^ (n - 1) % 2 = 1) := by
  simp only [split, Nat.shiftRight_eq_div_pow, Nat.and_one_is_mod]
  rfl

theorem split_sticky (x n : Nat) : (split x n).sticky = decide (x % 2 ^ (n - 1) ≠ 0) := by
  simp only [split, Nat.one_shiftLeft, Nat.and_two_pow_sub_one_eq_mod]
  rcases Nat.eq_zero_or_pos (x % 2 ^ (n - 1)) with h | h
  · simp [h]
  · simp [h.ne', bne_iff_ne]

/-- `rne_shr` by its remainder (R57): round up above halfway, and at halfway when the kept word is odd. -/
theorem rneShr_eq (x n : Nat) (hn : 1 ≤ n) :
    rneShr x n = x / 2 ^ n +
      (if 2 ^ (n - 1) < x % 2 ^ n ∨ (x % 2 ^ n = 2 ^ (n - 1) ∧ x / 2 ^ n % 2 = 1) then 1 else 0) := by
  obtain ⟨k, rfl⟩ : ∃ k, n = k + 1 := ⟨n - 1, by omega⟩
  have hp : 0 < 2 ^ k := Nat.two_pow_pos k
  have e1 : x / 2 ^ (k + 1) = x / 2 ^ k / 2 := by rw [pow_succ, Nat.div_div_eq_div_mul]
  have e2 : x % 2 ^ (k + 1) = x % 2 ^ k + 2 ^ k * (x / 2 ^ k % 2) := by rw [pow_succ, Nat.mod_mul]
  have hr : x % 2 ^ k < 2 ^ k := Nat.mod_lt _ hp
  simp only [rneShr, split_q, split_guard, split_sticky, roundInc, Nat.add_sub_cancel, if_neg (Nat.succ_ne_zero k)]
  congr 1
  rw [e2, e1]
  rcases Nat.mod_two_eq_zero_or_one (x / 2 ^ k) with hg | hg <;> rw [hg]
  · have : ¬(2 ^ k < x % 2 ^ k + 2 ^ k * 0 ∨
        x % 2 ^ k + 2 ^ k * 0 = 2 ^ k ∧ x / 2 ^ k / 2 % 2 = 1) := by omega
    rw [if_neg this]; rfl
  · rcases Nat.eq_zero_or_pos (x % 2 ^ k) with hs | hs
    · rcases Nat.mod_two_eq_zero_or_one (x / 2 ^ k / 2) with ho | ho <;> simp [hs, ho]
    · have h1 : 2 ^ k < x % 2 ^ k + 2 ^ k * 1 := by omega
      rw [if_pos (Or.inl h1)]
      simp [hs.ne']

/-- `rne_shr` of a 24-bit significand by 25 or more is 0 (R57). -/
theorem rneShr_of_large {x n : Nat} (hx : x < 2 ^ 24) (hn : 25 ≤ n) : rneShr x n = 0 := by
  have h1 : 2 ^ 24 ≤ 2 ^ (n - 1) := Nat.pow_le_pow_right (by omega) (by omega)
  have h2 : 2 ^ (n - 1) ≤ 2 ^ n := Nat.pow_le_pow_right (by omega) (by omega)
  rw [rneShr_eq x n (by omega), Nat.div_eq_of_lt (by omega), Nat.mod_eq_of_lt (by omega), if_neg (by omega)]

/-- The result is never more than one above the quotient. -/
theorem rneShr_le (x n : Nat) : rneShr x n ≤ x / 2 ^ n + 1 := by
  rcases Nat.eq_zero_or_pos n with h | h
  · subst h; simp [rneShr]
  · rw [rneShr_eq x n h]; split_ifs <;> omega

/-- `round_word` below the top of the range does not wrap (R56, R77). -/
theorem roundWord_toNat (w : Half) (inc : Bool) (hw : w.toNat < 2 ^ 16 - 1) :
    (roundWord w inc).toNat = w.toNat + inc.toNat := by
  cases inc
  · simp [roundWord]
  · simp only [roundWord, BitVec.toNat_add]
    have : (BitVec.setWidth 16 (BitVec.ofBool true)).toNat = 1 := rfl
    rw [this, Bool.toNat_true]; omega

/-! ### Internal floating-point unit -/

/-- The hidden bit OR-ed onto a mantissa is added to it. -/
theorem hidden_or (M : Nat) (hM : M < 2 ^ 23) : 0x800000 ||| M = 2 ^ 23 + M := by
  have := Nat.two_pow_add_eq_or_of_lt hM 1
  simp only [Nat.mul_one] at this
  exact this.symm

/-- `scale_m112` on a normal result is exact (R61, first line). -/
theorem scaleM112_of_ge (ftz : Bool) (a : Single) (h : 113 ≤ singleExp a) :
    (scaleM112 ftz a).toNat = a.toNat - 112 * 2 ^ 23 := by
  have hl := a.isLt
  have he := singleExp_eq a
  rw [scaleM112, if_pos h, BitVec.toNat_sub, show (0x38000000#32).toNat = 112 * 2 ^ 23 from rfl]
  omega

/-- `scale_m112` in the subnormal range flushes to +0 under `FTZ` (R60, R61). -/
theorem scaleM112_flush (a : Single) (h : singleExp a ≤ 112) : scaleM112 true a = 0#32 := by
  unfold scaleM112
  rw [if_neg (by omega), if_pos rfl, ite_self]

/-- `scale_m112` of a zero or subnormal operand is +0 (R61, second line). -/
theorem scaleM112_exp_zero (ftz : Bool) (a : Single) (h : singleExp a = 0) : scaleM112 ftz a = 0#32 := by
  unfold scaleM112
  rw [if_neg (by omega), if_pos h]

/-- `scale_m112` in the subnormal range without `FTZ` (R61, last line). -/
theorem scaleM112_subnormal (a : Single) (h1 : 1 ≤ singleExp a) (h : singleExp a ≤ 112) :
    (scaleM112 false a).toNat = rneShr (2 ^ 23 + singleMant a) (113 - singleExp a) := by
  have hM := singleMant_lt a
  unfold scaleM112
  rw [if_neg (by omega), if_neg (by omega), if_neg (by decide), hidden_or _ hM, BitVec.toNat_ofNat]
  apply Nat.mod_eq_of_lt
  have := rneShr_le (2 ^ 23 + singleMant a) (113 - singleExp a)
  have := Nat.div_le_self (2 ^ 23 + singleMant a) (2 ^ (113 - singleExp a))
  omega

/-- `add_half` (R62): 0.5's pattern plus the operand in units of 2^-24. -/
theorem addHalf_sub (a : Single) : addHalf a - 0x3F000000#32 = BitVec.ofNat 32 (addHalfUnits a) := by
  rw [addHalf, BitVec.add_comm, BitVec.add_sub_cancel]

theorem addHalfUnits_zero (a : Single) (h : singleExp a = 0) : addHalfUnits a = 0 := by
  rw [addHalfUnits, if_pos h]

theorem addHalfUnits_pos (a : Single) (h : 1 ≤ singleExp a) :
    addHalfUnits a = rneShr (2 ^ 23 + singleMant a) (126 - singleExp a) := by
  rw [addHalfUnits, if_neg (by omega), hidden_or _ (singleMant_lt a)]

/-- `msbBelow` finds the leading 1 of a number below `2^n`. -/
theorem msbBelow_spec : ∀ (n m : Nat), m ≠ 0 → m < 2 ^ n →
    msbBelow m n < n ∧ 2 ^ msbBelow m n ≤ m ∧ m < 2 ^ (msbBelow m n + 1)
  | 0, m, h0, h => by omega
  | n + 1, m, h0, h => by
    by_cases hb : m.testBit n
    · simp only [msbBelow, if_pos hb]
      exact ⟨by omega, Nat.ge_two_pow_of_testBit hb, h⟩
    · have hlt : m < 2 ^ n := by
        apply Nat.lt_pow_two_of_testBit
        intro i hi
        rcases Nat.eq_or_lt_of_le hi with rfl | hi'
        · simpa using hb
        · exact Nat.testBit_lt_two_pow (lt_of_lt_of_le h (Nat.pow_le_pow_right (by omega) hi'))
      have ih := msbBelow_spec n m h0 hlt
      simp only [msbBelow, if_neg hb]
      exact ⟨by omega, ih.2⟩

/-- `msb_index(m)` is the position of the leading 1 (R66). -/
theorem msbIndex_spec (m : Nat) (h0 : m ≠ 0) (h : m < 2 ^ 10) :
    msbIndex m ≤ 9 ∧ 2 ^ msbIndex m ≤ m ∧ m < 2 ^ (msbIndex m + 1) := by
  have := msbBelow_spec 10 m h0 h
  exact ⟨by unfold msbIndex; omega, this.2⟩

end Sys2Proof.Machine
end

