-- ==== Sys2Proof/Laws/Decoder.lean ====
section
/-! SUPPORT. The decode operation as arithmetic on the fields `e` and `m`. -/

namespace Sys2Proof.Machine

/-- An exponent field and the shifted mantissa, OR-ed, are added (R68). -/
theorem decodeWord_toNat (x m : Nat) (hx : x < 256) (hm : m < 2 ^ 10) :
    ((BitVec.ofNat 32 x <<< 23) ||| (BitVec.ofNat 32 m <<< 13)).toNat = x * 2 ^ 23 + m * 2 ^ 13 := by
  have h1 : (BitVec.ofNat 32 x <<< 23).toNat = 2 ^ 23 * x := by
    simp only [BitVec.toNat_shiftLeft, BitVec.toNat_ofNat, Nat.shiftLeft_eq]; omega
  have h2 : (BitVec.ofNat 32 m <<< 13).toNat = m * 2 ^ 13 := by
    simp only [BitVec.toNat_shiftLeft, BitVec.toNat_ofNat, Nat.shiftLeft_eq]; omega
  rw [BitVec.toNat_or, h1, h2, ← Nat.two_pow_add_eq_or_of_lt (by omega)]
  omega

/-- `sub_magic` on zero (R63). -/
theorem subMagic_zero : subMagic 0x38800000#32 = 0#32 := rfl

/-- `sub_magic` renormalises: the leading 1 of `m` becomes the hidden bit (R63). -/
theorem subMagic_toNat (m : Nat) (h0 : m ≠ 0) (hm : m < 2 ^ 10) :
    (subMagic ((BitVec.ofNat 32 113 <<< 23) ||| (BitVec.ofNat 32 m <<< 13))).toNat =
      (103 + msbIndex m) * 2 ^ 23 + (m - 2 ^ msbIndex m) * 2 ^ (23 - msbIndex m) := by
  obtain ⟨hk, hlo, hhi⟩ := msbIndex_spec m h0 hm
  have hw := decodeWord_toNat 113 m (by omega) hm
  have hf : (((BitVec.ofNat 32 113 <<< 23) ||| (BitVec.ofNat 32 m <<< 13)).extractLsb' 13 10).toNat = m := by
    rw [BitVec.extractLsb'_toNat, hw, Nat.shiftRight_eq_div_pow]; omega
  unfold subMagic
  simp only [hf, if_neg h0]
  generalize msbIndex m = k at *
  have he : (BitVec.ofNat 32 (103 + k) <<< 23).toNat = 2 ^ 23 * (103 + k) := by
    simp only [BitVec.toNat_shiftLeft, BitVec.toNat_ofNat, Nat.shiftLeft_eq]; omega
  have hp : 2 ^ k * 2 ^ (23 - k) = 2 ^ 23 := by rw [← pow_add, show k + (23 - k) = 23 by omega]
  have hp1 : 2 ^ (k + 1) * 2 ^ (23 - k) = 2 ^ 24 := by rw [← pow_add, show k + 1 + (23 - k) = 24 by omega]
  have hub : m * 2 ^ (23 - k) < 2 ^ 24 := by
    rw [← hp1]; exact Nat.mul_lt_mul_of_pos_right hhi (Nat.two_pow_pos _)
  have hlb : 2 ^ 23 ≤ m * 2 ^ (23 - k) := by
    rw [← hp]; exact Nat.mul_le_mul_right _ hlo
  have hs : ((BitVec.ofNat 32 m <<< (23 - k)) &&& 0x7FFFFF#32).toNat = (m - 2 ^ k) * 2 ^ (23 - k) := by
    rw [BitVec.toNat_and, show (0x7FFFFF#32).toNat = 2 ^ 23 - 1 from rfl, Nat.and_two_pow_sub_one_eq_mod,
      BitVec.toNat_shiftLeft, BitVec.toNat_ofNat, Nat.shiftLeft_eq, Nat.mod_eq_of_lt (show m < 2 ^ 32 by omega),
      Nat.sub_mul, hp]
    omega
  have hlt : (m - 2 ^ k) * 2 ^ (23 - k) < 2 ^ 23 := by rw [Nat.sub_mul, hp]; omega
  rw [BitVec.toNat_or, he, hs, ← Nat.two_pow_add_eq_or_of_lt hlt]
  omega

/-- `DEC` with a non-zero exponent field (R68, first two branches). -/
theorem decodeHalf_toNat_of_exp (h : Half) (he : halfExp h ≠ 0) :
    (decodeHalf h).toNat =
      (halfSign h).toNat * 2 ^ 31 + ebaDec (halfExp h) * 2 ^ 23 + halfMant h * 2 ^ 13 := by
  have hm := halfMant_lt h
  have hx : ebaDec (halfExp h) < 256 := by
    have := halfExp_lt h
    unfold ebaDec; split_ifs <;> omega
  have hw := decodeWord_toNat _ _ hx hm
  unfold decodeHalf
  simp only [if_pos he, ite_self]
  rw [withSingleSign_toNat _ _ (by rw [hw]; omega), hw]
  omega

/-- `DEC` of a zero (R68). -/
theorem decodeHalf_toNat_zero (h : Half) (he : halfExp h = 0) (hm : halfMant h = 0) :
    (decodeHalf h).toNat = (halfSign h).toNat * 2 ^ 31 := by
  have : decodeHalf h = withSingleSign (halfSign h) 0#32 := by
    unfold decodeHalf
    rw [he, hm]
    rfl
  rw [this, withSingleSign_toNat _ _ (by decide)]
  simp

/-- `DEC` of a subnormal (R68, last branch). -/
theorem decodeHalf_toNat_subnormal (h : Half) (he : halfExp h = 0) (hm : halfMant h ≠ 0) :
    (decodeHalf h).toNat =
      (halfSign h).toNat * 2 ^ 31 + (103 + msbIndex (halfMant h)) * 2 ^ 23 +
        (halfMant h - 2 ^ msbIndex (halfMant h)) * 2 ^ (23 - msbIndex (halfMant h)) := by
  have hs := subMagic_toNat _ hm (halfMant_lt h)
  obtain ⟨hk, hlo, hhi⟩ := msbIndex_spec _ hm (halfMant_lt h)
  have hlt : (halfMant h - 2 ^ msbIndex (halfMant h)) * 2 ^ (23 - msbIndex (halfMant h)) < 2 ^ 23 := by
    have hp : 2 ^ msbIndex (halfMant h) * 2 ^ (23 - msbIndex (halfMant h)) = 2 ^ 23 := by
      rw [← pow_add, Nat.add_sub_cancel' (by omega)]
    calc (halfMant h - 2 ^ msbIndex (halfMant h)) * 2 ^ (23 - msbIndex (halfMant h))
        < 2 ^ msbIndex (halfMant h) * 2 ^ (23 - msbIndex (halfMant h)) :=
          Nat.mul_lt_mul_of_pos_right (by rw [pow_succ] at hhi; omega) (Nat.two_pow_pos _)
      _ = 2 ^ 23 := hp
  unfold decodeHalf
  simp only [he]
  rw [if_neg (by omega), if_neg (by omega), show ebaDec 0 = 113 from rfl,
    withSingleSign_toNat _ _ (by rw [hs]; omega), hs]
  omega

end Sys2Proof.Machine
end

