-- ==== Sys2Proof/Laws/Encoders.lean ====
section
/-! SUPPORT. The magnitude words of the encoders as arithmetic on the fields `E` and `M`. -/

namespace Sys2Proof.Machine

theorem nonfiniteWord_toNat (M : Nat) :
    (nonfiniteWord M).toNat = if M = 0 then 0x7C00 else 0x7E00 := by
  unfold nonfiniteWord
  by_cases h : M = 0 <;> simp [h]

/-- The increment of the rounder on a kept word (R53, R54, R56). -/
theorem roundKept_toNat (mode : RoundMode) (w : Half) (g st : Bool) (hw : w.toNat < 2 ^ 16 - 1) :
    (roundKept mode w g st).toNat = w.toNat + (roundInc mode (decide (w.toNat % 2 = 1)) g st).toNat := by
  unfold roundKept
  rw [roundWord_toNat _ _ hw]
  congr 3
  simp [BitVec.getLsbD, Nat.testBit_eq_decide_div_mod_eq]

/-- `HALF_UP` on the remainder: up from halfway (R53). -/
theorem roundInc_halfUp (lsb : Bool) (x n : Nat) :
    (roundInc .halfUp lsb (split x n).guard (split x n).sticky).toNat = x / 2 ^ (n - 1) % 2 := by
  simp only [roundInc, split_guard]
  rcases Nat.mod_two_eq_zero_or_one (x / 2 ^ (n - 1)) with h | h <;> rw [h] <;> rfl

/-- `RNE` with the kept quotient's own low bit is `rne_shr` (R57). -/
theorem roundInc_rne (x n : Nat) (hn : 1 ≤ n) :
    (split x n).q + (roundInc .rne (decide ((split x n).q % 2 = 1)) (split x n).guard (split x n).sticky).toNat =
      rneShr x n := by
  rw [rneShr, if_neg (by omega)]
  rfl

/-- Case (d) before rounding: the kept quotient is at most 0x3FF (R73, R77). -/
theorem subnormal_q_lt {M n : Nat} (hM : M < 2 ^ 23) (hn : 14 ≤ n) : (2 ^ 23 + M) / 2 ^ n < 2 ^ 10 := by
  apply Nat.div_lt_of_lt_mul
  calc 2 ^ 23 + M < 2 ^ 14 * 2 ^ 10 := by omega
    _ ≤ 2 ^ n * 2 ^ 10 := Nat.mul_le_mul_right _ (Nat.pow_le_pow_right (by omega) hn)

/-- The shift count of case (d) is `126 - E` (R50). -/
theorem shift_eq {E : Nat} (h : E ≤ 126) : (14 - ebaEnc E).toNat = 126 - E := by
  rw [ebaEnc_eq]; omega

/-- The shift of case (d) is of `2^23 + M` by `126 - E`. -/
theorem subnormalSplit_eq {E M : Nat} (hE : E ≤ 126) (hM : M < 2 ^ 23) :
    subnormalSplit E M = split (2 ^ 23 + M) (126 - E) := by
  rw [subnormalSplit, hidden_or _ hM, shift_eq hE]

/-- Case (d), the kept word as a number (R73). -/
theorem subnormalKept_toNat {E M : Nat} (hE : E ≤ 112) (hM : M < 2 ^ 23) :
    (subnormalKept E M).toNat = (2 ^ 23 + M) / 2 ^ (126 - E) := by
  have hq := subnormal_q_lt (M := M) (n := 126 - E) hM (by omega)
  rw [subnormalKept, subnormalSplit_eq (by omega) hM, BitVec.toNat_ofNat, split_q]
  exact Nat.mod_eq_of_lt (by omega)

/-- Case (f), the kept word `(newexp << 10) | (M >> 13)` as a number (R73). -/
theorem normalKept_toNat {E M : Nat} (h1 : 113 ≤ E) (h2 : E ≤ 142) (hM : M < 2 ^ 23) :
    (normalKept E M).toNat = (E - 112) * 2 ^ 10 + M / 2 ^ 13 := by
  have hq : M / 2 ^ 13 < 2 ^ 10 := by omega
  have he : (ebaEnc E).toNat = E - 112 := by rw [ebaEnc_eq]; omega
  rw [normalKept, split_q, he, Nat.shiftLeft_eq, Nat.mul_comm, ← Nat.two_pow_add_eq_or_of_lt hq, BitVec.toNat_ofNat]
  omega

theorem subnormalWord_halfUp {E M : Nat} (hE : E ≤ 112) (hM : M < 2 ^ 23) :
    (subnormalWord .halfUp E M).toNat =
      (2 ^ 23 + M) / 2 ^ (126 - E) + (2 ^ 23 + M) / 2 ^ (125 - E) % 2 := by
  have hq := subnormal_q_lt (M := M) (n := 126 - E) hM (by omega)
  have hk := subnormalKept_toNat hE hM
  rw [subnormalWord, roundKept_toNat _ _ _ _ (by omega), hk, subnormalSplit_eq (by omega) hM, roundInc_halfUp,
    show 126 - E - 1 = 125 - E by omega]

theorem subnormalWord_rne {E M : Nat} (hE : E ≤ 112) (hM : M < 2 ^ 23) :
    (subnormalWord .rne E M).toNat = rneShr (2 ^ 23 + M) (126 - E) := by
  have hq := subnormal_q_lt (M := M) (n := 126 - E) hM (by omega)
  have hk := subnormalKept_toNat hE hM
  rw [subnormalWord, roundKept_toNat _ _ _ _ (by omega), hk, subnormalSplit_eq (by omega) hM,
    ← roundInc_rne _ _ (by omega), split_q]

theorem normalWord_halfUp {E M : Nat} (h1 : 113 ≤ E) (h2 : E ≤ 142) (hM : M < 2 ^ 23) :
    (normalWord .halfUp E M).toNat = (E - 112) * 2 ^ 10 + M / 2 ^ 13 + M / 2 ^ 12 % 2 := by
  have hk := normalKept_toNat h1 h2 hM
  rw [normalWord, roundKept_toNat _ _ _ _ (by omega), hk, roundInc_halfUp]

theorem normalWord_rne {E M : Nat} (h1 : 113 ≤ E) (h2 : E ≤ 142) (hM : M < 2 ^ 23) :
    (normalWord .rne E M).toNat = (E - 112) * 2 ^ 10 + rneShr M 13 := by
  have hk := normalKept_toNat h1 h2 hM
  have hp : ((E - 112) * 2 ^ 10 + M / 2 ^ 13) % 2 = (split M 13).q % 2 := by rw [split_q]; omega
  rw [normalWord, roundKept_toNat _ _ _ _ (by omega), hk, hp, ← roundInc_rne M 13 (by omega), split_q]
  omega

/-- Rounding a kept word adds at most 1 (R54, R56). -/
theorem roundKept_le (mode : RoundMode) (w : Half) (g st : Bool) (hw : w.toNat < 2 ^ 16 - 1) :
    (roundKept mode w g st).toNat ≤ w.toNat + 1 := by
  rw [roundKept_toNat _ _ _ _ hw]
  exact Nat.add_le_add_left (Bool.toNat_le _) _

/-- The magnitude word never reaches bit 15 (R77). -/
theorem refWord_lt (mode : RoundMode) (E M : Nat) (hE : E < 256) (hM : M < 2 ^ 23) :
    (refWord mode E M).toNat ≤ 0x7E00 := by
  unfold refWord
  rcases (show E = 255 ∨ (143 ≤ E ∧ E < 255) ∨ (113 ≤ E ∧ E ≤ 142) ∨ (102 ≤ E ∧ E ≤ 112) ∨ E ≤ 101 by omega) with
    rfl | ⟨h, h'⟩ | ⟨h, h'⟩ | ⟨h, h'⟩ | h
  · rw [expClass_isMax]; simp only [nonfiniteWord_toNat]; split_ifs <;> omega
  · rw [expClass_overflow h h']; exact (by decide : (0x7C00#16).toNat ≤ 0x7E00)
  · rw [expClass_normal h h']
    have hk := normalKept_toNat h h' hM
    have := roundKept_le mode (normalKept E M) (split M 13).guard (split M 13).sticky (by omega)
    simp only [normalWord]
    omega
  · rw [expClass_subnormal h h']
    have hq := subnormal_q_lt (M := M) (n := 126 - E) hM (by omega)
    have hk := subnormalKept_toNat h' hM
    have := roundKept_le mode (subnormalKept E M) (subnormalSplit E M).guard (subnormalSplit E M).sticky (by omega)
    simp only [subnormalWord]
    omega
  · rw [expClass_tooSmall h]; exact (by decide : (0#16).toNat ≤ 0x7E00)

/-- The reference family as a number: the sign above the magnitude word; the early exit changes nothing but the path
(R73). -/
theorem encRefFamily_toNat (f : Single) (mode : RoundMode) (earlyExit : Bool) :
    (encRefFamily f mode earlyExit).toNat =
      (singleSign f).toNat * 2 ^ 15 +
        (if earlyExit ∧ singleExp f = 0 then 0#16 else refWord mode (singleExp f) (singleMant f)).toNat := by
  unfold encRefFamily
  apply withHalfSign_toNat
  have := refWord_lt mode (singleExp f) (singleMant f) (singleExp_lt f) (singleMant_lt f)
  split_ifs
  · decide
  · omega

/-! ### The magic family's shared pieces -/

theorem magnitudeOf_toNat (f : Single) : (magnitudeOf f).toNat = f.toNat % 2 ^ 31 := by
  have : magnitudeOf f = f &&& 0x7FFFFFFF#32 := by
    have hc : ∀ i : Fin 32, (0x80000000#32).getLsbD i = !(0x7FFFFFFF#32).getLsbD i := by decide
    apply BitVec.eq_of_getLsbD_eq
    intro i hi
    simp only [magnitudeOf, BitVec.getLsbD_xor, BitVec.getLsbD_and, hc ⟨i, hi⟩]
    cases f.getLsbD i <;> cases (0x7FFFFFFF#32).getLsbD i <;> rfl
  rw [this, BitVec.toNat_and, show (0x7FFFFFFF#32).toNat = 2 ^ 31 - 1 from rfl, Nat.and_two_pow_sub_one_eq_mod]

theorem mergeSign_eq (f : Single) (w : Half) : mergeSign f w = withHalfSign (singleSign f) w := by
  have : ((f &&& 0x80000000#32) >>> 16).setWidth 16 = (BitVec.ofBool (singleSign f)).setWidth 16 <<< 15 := by
    ext i hi
    simp only [singleSign]
    interval_cases i <;> simp [BitVec.getElem_shiftLeft]
  rw [mergeSign, withHalfSign, this, BitVec.or_comm]

theorem readOffHalf_toNat (p : PortWord) (hp : p.toNat < 2 ^ 29) : (readOffHalf p).toNat = p.toNat / 2 ^ 13 := by
  simp only [readOffHalf, BitVec.toNat_setWidth, BitVec.toNat_ushiftRight, Nat.shiftRight_eq_div_pow]
  omega

theorem clampHalfInfinity_toNat (p : PortWord) : (clampHalfInfinity p).toNat = min p.toNat 0x0F800000 := by
  unfold clampHalfInfinity
  split_ifs with h
  · have : 0x0F800000 < p.toNat := h
    rw [Nat.min_eq_right this.le]; rfl
  · have : ¬0x0F800000 < p.toNat := h
    omega

/-- `f & 0x7FFFFFFF` and `f ^ sign` are the same magnitude (R83). -/
theorem and_eq_magnitudeOf (f : Single) : f &&& 0x7FFFFFFF#32 = magnitudeOf f := by
  apply BitVec.eq_of_toNat_eq
  rw [magnitudeOf_toNat, BitVec.toNat_and, show (0x7FFFFFFF#32).toNat = 2 ^ 31 - 1 from rfl,
    Nat.and_two_pow_sub_one_eq_mod]

@[simp] theorem magnitudeOf_exp (f : Single) : singleExp (magnitudeOf f) = singleExp f := by
  rw [singleExp_eq, singleExp_eq, magnitudeOf_toNat]; omega

@[simp] theorem magnitudeOf_mant (f : Single) : singleMant (magnitudeOf f) = singleMant f := by
  rw [singleMant_eq, singleMant_eq, magnitudeOf_toNat]; omega

/-- The magnitude is its two fields side by side (R38). -/
theorem magnitudeOf_fields (f : Single) :
    (magnitudeOf f).toNat = singleExp f * 2 ^ 23 + singleMant f := by
  have := f.isLt
  rw [magnitudeOf_toNat, singleExp_eq, singleMant_eq]; omega

/-- The mask `0xFFFFF000` clears the 12 lowest bits (R84). -/
theorem roundMask_toNat (a : Single) : (a &&& 0xFFFFF000#32).toNat = a.toNat / 2 ^ 12 * 2 ^ 12 := by
  have hs : a &&& 0xFFFFF000#32 = (a >>> 12) <<< 12 := by
    apply BitVec.eq_of_getLsbD_eq
    intro i hi
    have hc : ∀ j : Fin 32, (0xFFFFF000#32).getLsbD j = decide (12 ≤ j.val) := by decide
    simp only [BitVec.getLsbD_and, hc ⟨i, hi⟩, BitVec.getLsbD_shiftLeft, BitVec.getLsbD_ushiftRight, hi]
    by_cases h : 12 ≤ i
    · simp [h, show ¬i < 12 by omega, Nat.add_sub_cancel' h]
    · simp [h, show i < 12 by omega]
  have := a.isLt
  rw [hs, BitVec.toNat_shiftLeft, BitVec.toNat_ushiftRight, Nat.shiftRight_eq_div_pow, Nat.shiftLeft_eq]
  omega

@[simp] theorem roundMask_exp (a : Single) : singleExp (a &&& 0xFFFFF000#32) = singleExp a := by
  rw [singleExp_eq, singleExp_eq, roundMask_toNat]; omega

theorem roundMask_mant (a : Single) :
    singleMant (a &&& 0xFFFFF000#32) = singleMant a / 2 ^ 12 * 2 ^ 12 := by
  rw [singleMant_eq, singleMant_eq, roundMask_toNat]; omega

/-- The words for infinity and NaN agree in both spellings (R84, R85). -/
theorem nanOrInfinity_magnitudeOf (f : Single) (h : singleExp f = 255) :
    nanOrInfinity (magnitudeOf f) = nonfiniteWord (singleMant f) := by
  have hf := magnitudeOf_fields f
  have hlt : (magnitudeOf f > 0x7F800000#32) ↔ singleMant f ≠ 0 := by
    have : (magnitudeOf f > 0x7F800000#32) ↔ 0x7F800000 < (magnitudeOf f).toNat := Iff.rfl
    rw [this, hf, h]; omega
  unfold nanOrInfinity nonfiniteWord
  by_cases hm : singleMant f = 0
  · rw [if_neg (by rw [hlt]; simpa using hm), if_neg (by simpa using hm)]; rfl
  · rw [if_pos (hlt.mpr hm), if_pos hm]; rfl

/-- The operand tests of the magic family are tests of the exponent field: at least 65536.0 (R87, R88). -/
theorem magnitudeOf_ge_65536 (f : Single) : magnitudeOf f ≥ 0x47800000#32 ↔ 143 ≤ singleExp f := by
  have hd : magnitudeOf f ≥ 0x47800000#32 ↔ 0x47800000 ≤ (magnitudeOf f).toNat := Iff.rfl
  have := singleMant_lt f
  rw [hd, magnitudeOf_fields]; omega

/-- Below 2^-14 (R87). -/
theorem magnitudeOf_lt_normal (f : Single) : magnitudeOf f < 0x38800000#32 ↔ singleExp f ≤ 112 := by
  have hd : magnitudeOf f < 0x38800000#32 ↔ (magnitudeOf f).toNat < 0x38800000 := Iff.rfl
  have := singleMant_lt f
  rw [hd, magnitudeOf_fields]; omega

/-- An infinity or a NaN (R85, R89). -/
theorem magnitudeOf_ge_infinity (f : Single) : magnitudeOf f ≥ 0x7F800000#32 ↔ singleExp f = 255 := by
  have hd : magnitudeOf f ≥ 0x7F800000#32 ↔ 0x7F800000 ≤ (magnitudeOf f).toNat := Iff.rfl
  have := singleMant_lt f
  have := singleExp_lt f
  rw [hd, magnitudeOf_fields]; omega

/-- A finite magnitude is no NaN, so the overflow word is infinity (R87). -/
theorem nanOrInfinity_of_finite (f : Single) (h : singleExp f ≠ 255) : nanOrInfinity (magnitudeOf f) = 0x7C00#16 := by
  have hi : ¬(magnitudeOf f ≥ 0x7F800000#32) := by rwa [magnitudeOf_ge_infinity]
  unfold nanOrInfinity
  exact if_neg fun hgt => hi (BitVec.le_of_lt hgt)

end Sys2Proof.Machine
end

