-- ==== Sys2Proof/Laws/PerInstr.lean ====
section
/-! SUPPORT. Statements about every instruction as syntax, one lemma per constructor.  The family `DirBit`: the
field `DIR` of an instruction's command word tells its direction (R44). -/

namespace Sys2Proof.Laws.DirBit

/-- `DIR` is 1 exactly for a decode (R44). -/
def Statement (i : Instr) : Prop := commandDir (encode i) = i.isDecode

theorem encRef : Statement .encRef := rfl
theorem encRtne : Statement .encRtne := rfl
theorem encFast : Statement .encFast := rfl
theorem encFast2 : Statement .encFast2 := rfl
theorem encFast3 : Statement .encFast3 := rfl
theorem encFast3Rtne : Statement .encFast3Rtne := rfl
theorem encApprox : Statement .encApprox := rfl
theorem encNative : Statement .encNative := rfl

theorem dec (variant : BitVec 3) : Statement (.dec variant) := by
  have h : ∀ v : BitVec 3, commandDir (commandOf true v) = true := by decide
  exact h variant

end Sys2Proof.Laws.DirBit
end

