-- ==== Sys2Proof/Laws/State.lean ====
section
/-! SUPPORT. One lemma per field per update of the state. -/

namespace Sys2Proof.Machine

@[simp] theorem State.answer_cmd (s : State) (d : PortWord) : (s.answer d).cmd = s.cmd := rfl
@[simp] theorem State.answer_din (s : State) (d : PortWord) : (s.answer d).din = s.din := rfl
@[simp] theorem State.answer_ftz (s : State) (d : PortWord) : (s.answer d).ftz = s.ftz := rfl
@[simp] theorem State.answer_dout (s : State) (d : PortWord) : (s.answer d).dout = d := rfl
@[simp] theorem State.answer_hasNative (s : State) (d : PortWord) : (s.answer d).hasNative = s.hasNative := rfl

@[simp] theorem State.present_cmd (s : State) (t : Transaction) : (s.present t).cmd = t.cmd := rfl
@[simp] theorem State.present_din (s : State) (t : Transaction) : (s.present t).din = t.din := rfl
@[simp] theorem State.present_ftz (s : State) (t : Transaction) : (s.present t).ftz = t.ftz := rfl
@[simp] theorem State.present_dout (s : State) (t : Transaction) : (s.present t).dout = s.dout := rfl
@[simp] theorem State.present_hasNative (s : State) (t : Transaction) :
    (s.present t).hasNative = s.hasNative := rfl

@[simp] theorem State.driveCommand_cmd (s : State) (w : Nat) :
    (s.driveCommand w).cmd = BitVec.ofNat 4 w := rfl
@[simp] theorem State.driveCommand_din (s : State) (w : Nat) : (s.driveCommand w).din = s.din := rfl
@[simp] theorem State.driveCommand_ftz (s : State) (w : Nat) : (s.driveCommand w).ftz = s.ftz := rfl
@[simp] theorem State.driveCommand_dout (s : State) (w : Nat) : (s.driveCommand w).dout = s.dout := rfl
@[simp] theorem State.driveCommand_hasNative (s : State) (w : Nat) :
    (s.driveCommand w).hasNative = s.hasNative := rfl

/-- Answering twice leaves the second answer. -/
@[simp] theorem State.answer_answer (s : State) (d d' : PortWord) : (s.answer d).answer d' = s.answer d' := rfl

/-- Driving the answer does not change the operands. -/
@[simp] theorem State.answer_operandSingle (s : State) (d : PortWord) :
    (s.answer d).operandSingle = s.operandSingle := rfl
@[simp] theorem State.answer_operandHalf (s : State) (d : PortWord) :
    (s.answer d).operandHalf = s.operandHalf := rfl
@[simp] theorem State.answer_fetched (s : State) (d : PortWord) : (s.answer d).fetched = s.fetched := rfl

/-- A state is its answered self with the `dout` it has. -/
theorem State.answer_self (s : State) : s.answer s.dout = s := rfl

end Sys2Proof.Machine
end

