-- ==== Sys2Proof/Laws/Step.lean ====
section
/-! SUPPORT. What an instruction and a step can do, said once: drive `dout`, and nothing else. -/

namespace Sys2Proof.Machine

/-- The word an instruction drives onto `dout`. -/
def answerOf (i : Instr) (s : State) : PortWord :=
  match i with
  | .encRef => placeHalf (encRef s.operandSingle)
  | .encRtne => placeHalf (encRtne s.operandSingle)
  | .encFast => placeHalf (encFast s.operandSingle)
  | .encFast2 => placeHalf (encFast2 s.ftz s.operandSingle)
  | .encFast3 => placeHalf (encFast3 s.ftz s.operandSingle)
  | .encFast3Rtne => placeHalf (encFast3Rtne s.operandSingle)
  | .encApprox => placeHalf (encApprox s.ftz s.operandSingle)
  | .encNative => placeHalf (encNative s.hasNative Config.nativeEncNonfinite s.operandSingle)
  | .dec _ => decodeTop s.hasNative Config.nativeDecNonfinite s.operandHalf

/-- Every instruction answers a next state, the old one with `dout` driven. -/
theorem exec_eq (i : Instr) (s : State) : exec i s = .next (s.answer (answerOf i s)) := by
  cases i <;> rfl

/-- The inversion lemma of a step: all a step can do. -/
theorem exec_inv {i : Instr} {s t : State} (h : exec i s = .next t) : t = s.answer (answerOf i s) := by
  rw [exec_eq] at h
  injection h with h
  exact h.symm

/-- An answer depends on the operands, `FTZ` and the build, not on what `dout` showed before. -/
theorem answerOf_answer (i : Instr) (s : State) (d : PortWord) : answerOf i (s.answer d) = answerOf i s := by
  cases i <;> rfl

/-- A well-formed list of lines runs to its end (R49). -/
theorem runLines_isSome : ∀ (ls : List Line) (results : List PortWord) (s : State),
    linesWellFormed results.length ls = true → (runLines ls results s).isSome = true
  | [], _, _, _ => rfl
  | l :: ls, results, s, h => by
    simp only [linesWellFormed, Bool.and_eq_true] at h
    obtain ⟨d, hd⟩ : ∃ d, operandWord results l.operand = some d := by
      have hl := h.1
      unfold Line.wellFormed at hl
      cases hop : l.operand with
      | literal v => exact ⟨v, rfl⟩
      | result k =>
        rw [hop] at hl
        have hk : 1 ≤ k ∧ k ≤ results.length := by simpa using hl
        obtain ⟨j, rfl⟩ : ∃ j, k = j + 1 := ⟨k - 1, by omega⟩
        exact ⟨results[j], by simp [operandWord]⟩
    simp only [runLines, hd, transact, step, exec_eq]
    exact runLines_isSome ls _ _ (by simpa using h.2)

end Sys2Proof.Machine
end

