-- ==== Sys2Proof/Tests/Slice0.lean ====
section
/-! SUPPORT. The model's own tests: command words written out from R45, one step on spec/95_test_vectors.md's vectors
(at most two per instruction), ill-formed terms, and a witness for the hypotheses of every statement. -/

namespace Sys2Proof.Tests

open Sys2Proof.Machine Sys2Proof.Safety

/-- The reset state with the given ports and build. -/
def ports (cmd : Command) (din : PortWord) (ftz : Bool := false) (hasNative : Bool := false) : State :=
  { State.reset with cmd := cmd, din := din, ftz := ftz, hasNative := hasNative }

/-- `dout` after one step. -/
def doutAfter (s : State) : Option PortWord :=
  match step s with
  | .next t => some t.dout
  | .fault _ => none
  | .refused _ => none

/-! ### Command words (R44, R45: DIR, then VARIANT as the position in the source's enumeration) -/

theorem test_decode_encRef : decode 0b0000#4 = .encRef := by decide
theorem test_decode_encRtne : decode 0b0001#4 = .encRtne := by decide
theorem test_decode_encFast : decode 0b0010#4 = .encFast := by decide
theorem test_decode_encFast2 : decode 0b0011#4 = .encFast2 := by decide
theorem test_decode_encFast3 : decode 0b0100#4 = .encFast3 := by decide
theorem test_decode_encFast3Rtne : decode 0b0101#4 = .encFast3Rtne := by decide
theorem test_decode_encApprox : decode 0b0110#4 = .encApprox := by decide
theorem test_decode_encNative : decode 0b0111#4 = .encNative := by decide
theorem test_decode_dec : decode 0b1000#4 = .dec 0 := by decide
theorem test_decode_dec_spelling : decode 0b1011#4 = .dec 0b011#3 := by decide
theorem test_encode_dec_spelling : encode (.dec 0b011#3) = 0b1011#4 := by decide
theorem test_table_word_dec : decodeTableWord 8 0x8 = some (.dec 0) := by decide
theorem test_table_word_encNative : decodeTableWord 8 0x7 = some .encNative := by decide
/-- A bit above `cmd[3]` belongs to no command (log entry 9). -/
theorem test_table_word_too_wide : decodeTableWord 8 0x10 = none := by decide
theorem test_numbered_too_wide :
    (match decodeNumbered 0x18 with | .error .bitAboveCommand => true | .ok _ => false) = true := by decide
theorem test_fetch_word : (State.reset.withFetchWord 8 0x6).fetched = .encApprox := by decide
theorem test_mnemonic : mnemonic (decode 0b0101#4) = "ENC.FAST3RTNE" := by decide

/-! ### Well-formedness (R48: no instruction check; R49: the line checks) -/

theorem test_instr_wf : (Instr.dec 7).wellFormed = true := by decide
theorem test_line_wf : (Line.mk (.dec 0) (.literal 0xFFFF) false).wellFormed 0 = true := by decide
theorem test_line_wf_encode : (Line.mk .encRef (.literal 0xFFFFFFFF) false).wellFormed 0 = true := by decide
/-- A decode literal of more than 4 hexadecimal digits is refused. -/
theorem test_line_decode_literal_too_wide :
    (Line.mk (.dec 0) (.literal 0x10000) false).wellFormed 0 = false := by decide
/-- P5 line 6 is ill formed by R49's 4 digits (log entry 17). -/
theorem test_p5_line6_ill_formed :
    (Line.mk (.dec 7) (.literal 0xDEADC248) true).wellFormed 5 = false := by decide
/-- `$0` names no line. -/
theorem test_line_result_zero : (Line.mk .encRef (.result 0) false).wellFormed 3 = false := by decide
/-- `$k` of this line or a later one is refused. -/
theorem test_line_result_later : (Line.mk .encRef (.result 4) false).wellFormed 3 = false := by decide
theorem test_lines_forward_reference :
    linesWellFormed 0 [⟨.dec 0, .literal 1, false⟩, ⟨.encRef, .result 2, false⟩] = false := by decide

/-! ### One step per instruction, vectors of 95_test_vectors.md sections 1, 2.4 to 2.6 -/

/-- Table 2.5: 2^-25, a tie that goes up. -/
theorem test_encRef_tie : doutAfter (ports 0b0000#4 0x33000000) = some 0x00000001 := by decide
/-- V1.5: 65520 carries to infinity. -/
theorem test_encRef_carry_to_infinity : doutAfter (ports 0b0000#4 0x477FF000) = some 0x00007C00 := by decide
/-- W1: the even tie stays, and the sign is copied (2.5, negated). -/
theorem test_encRtne_even_tie : doutAfter (ports 0b0001#4 0xB8002000) = some 0x00008200 := by decide
/-- Rule R75: tie, kept word odd. -/
theorem test_encRtne_odd_tie : doutAfter (ports 0b0001#4 0x3F803000) = some 0x00003C02 := by decide
/-- R76's worked example. -/
theorem test_encFast_least_subnormal : doutAfter (ports 0b0010#4 0x00000001) = some 0x00000000 := by decide
/-- Table 2.5: a negative NaN collapses. -/
theorem test_encFast_nan : doutAfter (ports 0b0010#4 0xFF800001) = some 0x0000FE00 := by decide
/-- W5, `FTZ` 0. -/
theorem test_encFast2_subnormal : doutAfter (ports 0b0011#4 0x37A7C5AC) = some 0x00000150 := by decide
/-- W5, `FTZ` 1. -/
theorem test_encFast2_flushed : doutAfter (ports 0b0011#4 0x37A7C5AC true) = some 0x00000000 := by decide
/-- R85's worked example. -/
theorem test_encFast3_carry_to_infinity : doutAfter (ports 0b0100#4 0xC77FF000) = some 0x0000FC00 := by decide
/-- 2.6: a flushed result keeps the sign. -/
theorem test_encFast3_flushed_sign : doutAfter (ports 0b0100#4 0xB7A7C5AC true) = some 0x00008000 := by decide
/-- R87's worked example: tie between words 1 and 2. -/
theorem test_encFast3Rtne_subnormal_tie : doutAfter (ports 0b0101#4 0x33C00000) = some 0x00000002 := by decide
/-- W3. -/
theorem test_encFast3Rtne_normal_tie : doutAfter (ports 0b0101#4 0x38801000 true) = some 0x00000400 := by decide
/-- R89's worked example: a signaling NaN becomes infinity. -/
theorem test_encApprox_snan_to_infinity : doutAfter (ports 0b0110#4 0x7F800001) = some 0x00007C00 := by decide
/-- R60: the one magnitude where the unit's own rounding shows. -/
theorem test_encApprox_double_rounding : doutAfter (ports 0b0110#4 0x387FFFFF) = some 0x00000400 := by decide
/-- 2.6: without the native unit, as ENC.FAST3RTNE. -/
theorem test_encNative_portable : doutAfter (ports 0b0111#4 0x7F800001) = some 0x00007E00 := by decide
/-- 2.7: with the native unit, finite operands as ENC.RTNE. -/
theorem test_encNative_native_finite :
    doutAfter (ports 0b0111#4 0x387FFFFF false true) = some 0x00000400 := by decide
/-- 2.6: `din[31:16]` and `cmd[2:0]` ignored; W4 for the subnormal. -/
theorem test_dec_ignored_bits : doutAfter (ports 0b1011#4 0xDEAD0201 true) = some 0x38004000 := by decide
/-- 2.4: a signaling NaN stays signaling. -/
theorem test_dec_snan : doutAfter (ports 0b1000#4 0x0000FD55) = some 0xFFAAA000 := by decide

/-! ### Witnesses: the hypotheses of each statement are met, clause by clause at a boundary -/

theorem witness_StepRunsFetchedInstruction :
    decode (ports 0b1001#4 0).cmd = .dec 1 ∧ (Instr.dec 1).wellFormed = true := by decide
theorem witness_DecodeEncodeRoundTrip : (Instr.dec 7).wellFormed = true ∧ Instr.encRef.wellFormed = true := by decide
theorem witness_DecodeSpellingsAgree : (0b1000#4).getLsbD 3 = true ∧ (0b1111#4).getLsbD 3 = true := by decide
theorem witness_TransactionsAreIndependent :
    (ports 0b0000#4 0x3F800000).hasNative = (ports 0b1111#4 0x7C00 true).hasNative := by decide
/-- For RepeatingChangesNothing and OutputFollowsInputs: a step from a state whose `dout` was another. -/
theorem witness_step : step (ports 0b0000#4 0x3F801000) =
    .next { ports 0b0000#4 0x3F801000 with dout := 0x3C01 } := by rfl
theorem witness_InstructionsDriveOnlyDout : exec (.dec 0) (ports 0b0000#4 0x3C00) =
    .next { ports 0b0000#4 0x3C00 with dout := 0x3F800000 } := by rfl
theorem witness_OutputFormKept_encode : OutputPlaced (ports 0b0000#4 0x3F801000) ∧
    step (ports 0b0000#4 0x3F801000) = .next { ports 0b0000#4 0x3F801000 with dout := 0x3C01 } :=
  ⟨by decide, rfl⟩
theorem witness_OutputFormKept_decode : OutputPlaced (ports 0b1000#4 0x7C01) ∧
    step (ports 0b1000#4 0x7C01) = .next { ports 0b1000#4 0x7C01 with dout := 0x7F802000 } := ⟨by decide, rfl⟩
theorem witness_FtzSeenOnlyBelowNormals :
    ((ports 0b0101#4 0).cmd ≠ 0b0011#4 ∧ (ports 0b0101#4 0).cmd ≠ 0b0100#4 ∧ (ports 0b0101#4 0).cmd ≠ 0b0110#4) ∧
    113 ≤ (ports 0b0110#4 0x38800000).din.toNat / 2 ^ 23 % 2 ^ 8 := by decide
theorem witness_DecodeIgnoresUpperOperand : (ports 0b1000#4 0x00003C00).cmd.getLsbD 3 = true ∧
    (0xDEAD3C00#32).toNat % 2 ^ 16 = (ports 0b1000#4 0x00003C00).din.toNat % 2 ^ 16 := by decide
theorem witness_BuildSeenOnlyOnNonfinite_encode :
    ((0b0111#4).getLsbD 3 = false → (0b0111#4) ≠ 0b0111#4 ∨ (0x7F7FFFFF#32).toNat / 2 ^ 23 % 2 ^ 8 ≠ 255) ∧
    ((0b0111#4).getLsbD 3 = true → (0x7F7FFFFF#32).toNat / 2 ^ 10 % 2 ^ 5 ≠ 31) := by decide
theorem witness_BuildSeenOnlyOnNonfinite_decode :
    ((0b1000#4).getLsbD 3 = false → (0b1000#4) ≠ 0b0111#4 ∨ (0x7BFF#32).toNat / 2 ^ 23 % 2 ^ 8 ≠ 255) ∧
    ((0b1000#4).getLsbD 3 = true → (0x7BFF#32).toNat / 2 ^ 10 % 2 ^ 5 ≠ 31) := by decide
theorem witness_BiasAdjusterEncode : (255 : Nat) ≤ 255 ∧ ebaEnc 0 = -112 ∧ ebaEnc 255 = 143 := by decide
theorem witness_SplitSummarisesDiscardedBits : (1 : Nat) ≤ 1 ∧ (split 3 1).guard = true ∧ (split 3 1).sticky = false := by
  decide
/-- A tie (3 / 2), and the three ranges of R57's consequences. -/
theorem witness_RneShrIsNearestEven :
    (1 ≠ 0 ∧ 2 * ((rneShr 3 1 * 2 ^ 1 : Nat) - ((3 : Nat) : Int)).natAbs = 2 ^ 1) ∧
    ((0xFFFFFFFF : Nat) < 2 ^ 32 ∧ 32 < 33) ∧ (0x800000 ≤ 0xFFFFFF ∧ 0xFFFFFF ≤ 0xFFFFFF ∧ 25 ≤ 25) := by decide
theorem witness_ScaleIsRoundedMultiplication_exact : (0x38800000#32).toNat ≤ 0x7F7FFFFF ∧
    2 ^ 23 * 2 ^ 112 ≤ singleUnits (singleExp 0x38800000#32) (singleMant 0x38800000#32) := by decide
theorem witness_ScaleIsRoundedMultiplication_below : (0x387FFFFF#32).toNat ≤ 0x7F7FFFFF ∧
    singleUnits (singleExp 0x387FFFFF#32) (singleMant 0x387FFFFF#32) < 2 ^ 23 * 2 ^ 112 := by decide
/-- 2.3: `0x2C800000` is a tie. -/
theorem witness_ScaleIsRoundedMultiplication_tie : (0x2C800000#32).toNat ≤ 0x7F7FFFFF ∧
    2 * singleUnits (singleExp 0x2C800000#32) (singleMant 0x2C800000#32) = 2 ^ 112 ∧
    scaleM112 false 0x2C800000#32 = 0#32 := by decide
theorem witness_AddHalfIsRoundedAddition : (0x387FFFFF#32).toNat < 0x38800000 ∧
    addHalf 0x387FFFFF#32 = 0x3F000400#32 := by decide
/-- 2.3: `0x33000000` is a tie. -/
theorem witness_AddHalfIsRoundedAddition_tie : (0x33000000#32).toNat < 0x38800000 ∧
    val32 (addHalf 0x33000000#32) = .finite false (2 ^ 148) ∧
    2 * singleUnits (singleExp 0x33000000#32) (singleMant 0x33000000#32) = 2 ^ 125 := by decide
theorem witness_SubMagicIsExactSubtraction : (1023 : Nat) < 2 ^ 10 := by decide
theorem witness_DecAnswer : (ports 0b1000#4 0x7C00).hasNative = false ∧
    (ports 0b1000#4 0x7BFF false true).din.toNat / 2 ^ 10 % 2 ^ 5 ≠ 31 := by decide
theorem witness_DecIsExact : val16 ((ports 0b1000#4 0xFC00).din.extractLsb' 0 16) ≠ .nan ∧
    (ports 0b1000#4 0xFC00).hasNative = false := by decide
theorem witness_DecIsExact_native : val16 ((ports 0b1000#4 0x83FF false true).din.extractLsb' 0 16) ≠ .nan ∧
    (ports 0b1000#4 0x83FF false true).din.toNat / 2 ^ 10 % 2 ^ 5 ≠ 31 := by decide
theorem witness_DecKeepsCategory : (ports 0b1000#4 0x7C01).hasNative = false ∧
    cat16 ((ports 0b1000#4 0x7C01).din.extractLsb' 0 16) = .signalingNaN ∧
    cat16 ((ports 0b1000#4 0x0001).din.extractLsb' 0 16) = .subnormal := by decide
theorem witness_DecNativeNonfinite : (ports 0b1000#4 0x7C00 false true).hasNative = true ∧
    (ports 0b1000#4 0x7C00 false true).din.toNat / 2 ^ 10 % 2 ^ 5 = 31 := by decide
theorem witness_DecIsInjective : decodeHalf 0x8000#16 = decodeHalf 0x8000#16 := rfl
/-- A tie of each kind, and an operand that is none. -/
theorem witness_RtneDiffersOnEvenTies :
    (0x3F801000 % 2 ^ 23 % 2 ^ 13 = 2 ^ 12 ∧ 0x3F801000 % 2 ^ 23 / 2 ^ 13 % 2 = 0) ∧
    (0x33000000 / 2 ^ 23 % 2 ^ 8 = 102 ∧ (2 ^ 23 + 0x33000000 % 2 ^ 23) % 2 ^ 24 = 2 ^ 23 ∧
      (2 ^ 23 + 0x33000000 % 2 ^ 23) / 2 ^ 24 % 2 = 0) ∧
    0x3F803000 % 2 ^ 23 / 2 ^ 13 % 2 ≠ 0 := by decide
/-- For both nearest statements and the thresholds: an operand from 65536 up, one just below, and a tie. -/
theorem witness_EncNearest : singleExp 0x47800000#32 ≠ 255 ∧
    2 ^ 165 ≤ singleUnits (singleExp 0x47800000#32) (singleMant 0x47800000#32) ∧ singleExp 0x477FFFFF#32 ≠ 255 ∧
    singleUnits (singleExp 0x477FFFFF#32) (singleMant 0x477FFFFF#32) < 2 ^ 165 ∧
    2 * singleUnits (singleExp 0x3F801000#32) (singleMant 0x3F801000#32) = halfUnits 15 0 + halfUnits 15 1 := by decide
theorem witness_RoundTrip : val16 0x0001#16 ≠ .nan ∧ val16 0x7C00#16 ≠ .nan ∧ val16 0x7C01#16 = .nan ∧
    cat16 0x0400#16 ≠ .subnormal ∧ cat16 0x03FF#16 = .subnormal := by decide
theorem witness_Fast2Fast3ClosedForm : (ports 0b0011#4 0x387FFFFF).ftz = false ∧
    113 ≤ (ports 0b0011#4 0x38800000 true).din.toNat / 2 ^ 23 % 2 ^ 8 ∧
    ((ports 0b0011#4 0x387FFFFF true).ftz = true ∧
      (ports 0b0011#4 0x387FFFFF true).din.toNat / 2 ^ 23 % 2 ^ 8 ≤ 112) := by decide
theorem witness_EncApproxOnNaN :
    ((cat32 0x7F801FFF#32).isNaN = true ∧ (0x7F801FFF#32).toNat % 2 ^ 23 < 2 ^ 13) ∧
    ((cat32 0x7F802000#32).isNaN = true ∧ 2 ^ 13 ≤ (0x7F802000#32).toNat % 2 ^ 23) := by decide
theorem witness_NaNPayloadCollapses : (cat32 (ports 0b0111#4 0xFF800001).din).isNaN = true ∧
    (ports 0b0111#4 0xFF800001).hasNative = false := by decide
theorem witness_EncNativePortable : (ports 0b0111#4 0x7FC00000).hasNative = false := by decide
theorem witness_EncNativeFinite : (ports 0b0111#4 0x7F7FFFFF false true).din.toNat / 2 ^ 23 % 2 ^ 8 ≠ 255 := by decide
theorem witness_EncNativeNonfinite : (ports 0b0111#4 0x7F800000 false true).hasNative = true ∧
    (ports 0b0111#4 0x7F800000 false true).din.toNat / 2 ^ 23 % 2 ^ 8 = 255 := by decide
/-- For MagnitudeWordNeverReachesSign: the four clauses at their boundaries, where both bounds are met. -/
theorem witness_MagnitudeWordNeverReachesSign : (255 ≤ 255 ∧ 0x7FFFFF < 2 ^ 23) ∧
    (102 ≤ 112 ∧ 112 ≤ 112 ∧ subnormalKept 112 0x7FFFFF = 0x03FF#16 ∧ refWord .rne 112 0x7FFFFF = 0x0400#16) ∧
    (113 ≤ 142 ∧ 142 ≤ 142 ∧ normalKept 142 0x7FFFFF = 0x7BFF#16 ∧ refWord .rne 142 0x7FFFFF = 0x7C00#16) ∧
    (refWord .rne 101 0x7FFFFF = 0x0000#16 ∧ refWord .rne 143 0 = 0x7C00#16 ∧ refWord .rne 255 1 = 0x7E00#16) := by
  decide

end Sys2Proof.Tests
end

section
/-! PROOFS. The state: a step drives `dout` with the function of the whole block and changes nothing else (R19 to R28). -/

namespace Sys2Proof.Machine

open Sys2Proof.Safety

/-! ### The fetched instruction answers the block's function (R45, R101) -/

/-- A command with `DIR` = 1 selects `DEC` (R45). -/
theorem decode_of_dir {c : Command} (h : commandDir c = true) : decode c = .dec (commandVariant c) := if_pos h

/-- A command with `DIR` = 0 selects the encoder that `VARIANT` names (R45). -/
theorem decode_of_not_dir {c : Command} (h : commandDir c = false) : decode c = decodeVariant (commandVariant c) := by
  simp [decode, h]

/-- With `DIR` = 1 the block answers a decode, whatever `VARIANT` is (R48, R101). -/
theorem State.blockAnswer_of_dir {s : State} (h : commandDir s.cmd = true) (v : BitVec 3) :
    s.blockAnswer = answerOf (.dec v) s := if_pos h

/-- With `DIR` = 0 the block answers the encoder that `VARIANT` names: R101's selection is R45's, row by row. -/
theorem State.blockAnswer_of_not_dir {s : State} (h : commandDir s.cmd = false) :
    s.blockAnswer = answerOf (decodeVariant (commandVariant s.cmd)) s := by
  have hbit : ¬ s.cmd.getLsbD 3 = true := by simpa [commandDir] using h
  unfold State.blockAnswer blockExec
  rw [if_neg hbit]
  unfold decodeVariant commandVariant
  generalize (s.cmd.extractLsb' 0 3).toNat = n
  match n with
  | 0 | 1 | 2 | 3 | 4 | 5 | 6 => rfl
  | _ + 7 => rfl

/-- The fetched instruction's answer is the block's function of the ports (R101). -/
theorem answerOf_fetched (s : State) : answerOf s.fetched s = s.blockAnswer := by
  unfold State.fetched
  cases h : commandDir s.cmd with
  | true => rw [decode_of_dir h, State.blockAnswer_of_dir h]
  | false => rw [decode_of_not_dir h, State.blockAnswer_of_not_dir h]

/-! ### What a step does -/

/-- The block's function reads the inputs and the build, not what `dout` showed before (R21). -/
@[simp] theorem State.answer_blockAnswer (s : State) (d : PortWord) : (s.answer d).blockAnswer = s.blockAnswer := rfl

/-- A step drives `dout` with the block's function of the ports, and nothing else (R19, R101). -/
theorem step_eq (s : State) : step s = .next (s.answer s.blockAnswer) := by
  rw [step, exec_eq, answerOf_fetched]

/-- The inversion lemma of a step on the ports: the only state it can answer. -/
theorem step_inv {s t : State} (h : step s = .next t) : t = s.answer s.blockAnswer := by
  rw [← answerOf_fetched]
  exact exec_inv h

/-- Answering the block's function settles any state. -/
theorem State.settled_answer (s : State) : Settled (s.answer s.blockAnswer) := by
  simp [Settled]

/-- A settled state is one that a step leaves as it is (R33). -/
theorem step_of_settled {s : State} (h : Settled s) : step s = .next s := by
  rw [step_eq, ← h, State.answer_self]

/-- At reset `dout` is `ENC.REF 0x00000000` (R28; assumption log, entries 3 and 4). -/
theorem State.settled_reset : Settled State.reset := by decide

/-! ### The statements about the state -/

/-- Settles O10: whatever the instruction, its next state is the old one with `dout` driven. -/
theorem instructionsDriveOnlyDout : Obligations.InstructionsDriveOnlyDout := by
  intro i s t h
  rw [exec_inv h]
  exact ⟨s.answer_cmd _, s.answer_din _, s.answer_ftz _, s.answer_hasNative _⟩

/-- Settles O13: a step answers the block's function, which the new `dout` does not change. -/
theorem outputFollowsInputs : Obligations.OutputFollowsInputs := by
  intro s t h
  rw [step_inv h]
  exact s.settled_answer

/-- Settles O1: the fetched instruction is the decoded command, and a step is its `exec`. -/
theorem stepRunsFetchedInstruction : Obligations.StepRunsFetchedInstruction := by
  rintro s i hdecode -
  rw [step, State.fetched, hdecode]

/-- Settles O14: the reset state is settled, so a step leaves it as it is. -/
theorem resetIsSettled : Obligations.ResetIsSettled :=
  ⟨State.settled_reset, step_of_settled State.settled_reset⟩

end Sys2Proof.Machine
end

section
/-! PROOFS. No memory: a transaction's answer is the block's function of that transaction and of the build, and nothing
of an earlier transaction is left in it (R19, R33, R35). -/

namespace Sys2Proof.Machine

/-! ### What a transaction does -/

/-- The block's function of a presented transaction: nothing of the earlier state but the build stands in it (R19). -/
theorem State.present_blockAnswer (s : State) (x : Transaction) :
    (s.present x).blockAnswer =
      blockExec s.hasNative Config.nativeEncNonfinite Config.nativeDecNonfinite x.cmd x.din x.ftz := rfl

/-- A transaction drives `dout` with the block's function of the presented ports. -/
theorem transact_eq (s : State) (x : Transaction) :
    transact s x = .next ((s.present x).answer (s.present x).blockAnswer) := step_eq _

/-- A transaction and its answer overwrite every field but the build. -/
theorem State.present_answer_congr {s s' : State} (h : s.hasNative = s'.hasNative) (x : Transaction) (d : PortWord) :
    (s.present x).answer d = (s'.present x).answer d := by
  simp [State.present, State.answer, h]

/-- Two states of one build have the same outcome of a transaction (R35). -/
theorem transact_congr {s s' : State} (h : s.hasNative = s'.hasNative) (x : Transaction) :
    transact s x = transact s' x := by
  have hanswer : (s.present x).blockAnswer = (s'.present x).blockAnswer := by
    rw [State.present_blockAnswer, State.present_blockAnswer, h]
  rw [transact_eq, transact_eq, hanswer, State.present_answer_congr h]

/-! ### The statements about memory -/

/-- Settles O8: the common next state is the first state's, and the second state has the same outcome. -/
theorem transactionsAreIndependent : Obligations.TransactionsAreIndependent := by
  intro s s' x hbuild
  refine ⟨(s.present x).answer (s.present x).blockAnswer, transact_eq s x, ?_, s.present_blockAnswer x⟩
  rw [← transact_congr hbuild, transact_eq]

/-- Settles O9: a step leaves a settled state, and a settled state is one that a step leaves as it is. -/
theorem repeatingChangesNothing : Obligations.RepeatingChangesNothing := by
  intro s t h
  exact step_of_settled (outputFollowsInputs s t h)

end Sys2Proof.Machine
end

section
/-! PROOFS. The command word: reading and writing it are inverse, in both directions (R44, R45, R48). -/

namespace Sys2Proof

/-! ### The fields of a command word (R44) -/

@[simp] theorem commandDir_commandOf : ∀ (dir : Bool) (v : BitVec 3), commandDir (commandOf dir v) = dir := by
  decide

@[simp] theorem commandVariant_commandOf (dir : Bool) (v : BitVec 3) : commandVariant (commandOf dir v) = v :=
  BitVec.extractLsb'_append_eq_right

/-- A command word is its two fields side by side. -/
theorem commandOf_fields : ∀ c : Command, commandOf (commandDir c) (commandVariant c) = c := by decide

/-! ### Decoding inverts encoding -/

@[simp] theorem decode_commandOf_true (v : BitVec 3) : decode (commandOf true v) = .dec v := by
  simp [decode]

@[simp] theorem decode_commandOf_false (v : BitVec 3) : decode (commandOf false v) = decodeVariant v := by
  simp [decode]

/-- Decoding an instruction's command word gives it back: the fields are read as they were written. -/
theorem decode_encode (i : Instr) : decode (encode i) = i := by
  cases i with
  | dec v => exact decode_commandOf_true v
  | _ => exact decode_commandOf_false _

/-! ### Encoding inverts decoding -/

/-- The encoder a selector names is encoded by that selector, with `DIR` = 0 (R45). -/
theorem encode_decodeVariant : ∀ v : BitVec 3, encode (decodeVariant v) = commandOf false v := by decide

/-- A command word is the encoding of what it decodes to (R48). -/
theorem encode_decode (c : Command) : encode (decode c) = c := by
  rw [← commandOf_fields c]
  cases commandDir c with
  | true => rw [decode_commandOf_true, encode]
  | false => rw [decode_commandOf_false, encode_decodeVariant]

/-- No instruction has a check that could fail (R48). -/
theorem Instr.wellFormed_eq_true (i : Instr) : i.wellFormed = true := by
  cases i <;> rfl

/-! ### The statements about the command word -/

/-- Settles O3: decoding inverts encoding on every instruction, with no use of its well-formedness. -/
theorem decodeEncodeRoundTrip : Obligations.DecodeEncodeRoundTrip := fun i _ => decode_encode i

/-- Settles O2: the words of the table are the encodings of its operations, and decoding inverts encoding. -/
theorem commandTableDecodes : Obligations.CommandTableDecodes :=
  ⟨decode_encode .encRef, decode_encode .encRtne, decode_encode .encFast, decode_encode .encFast2,
    decode_encode .encFast3, decode_encode .encFast3Rtne, decode_encode .encApprox, decode_encode .encNative,
    decode_encode (.dec 0), decode_encode (.dec 1), decode_encode (.dec 2), decode_encode (.dec 3),
    decode_encode (.dec 4), decode_encode (.dec 5), decode_encode (.dec 6), decode_encode (.dec 7)⟩

/-- Settles O4: encoding inverts decoding, and every instruction is well formed. -/
theorem everyCommandIsAnEncoding : Obligations.EveryCommandIsAnEncoding :=
  fun c => ⟨encode_decode c, (decode c).wellFormed_eq_true⟩

end Sys2Proof
end

section
/-! PROOFS. What a decode reads: `din[15:0]` and the build, neither `VARIANT` nor `din[31:16]` (R46, R48). -/

namespace Sys2Proof.Machine

/-- Two states for which the block's function has one value both step, to one `dout`. -/
theorem step_dout_congr {s s' : State} (h : s'.blockAnswer = s.blockAnswer) :
    ∃ t t', step s = .next t ∧ step s' = .next t' ∧ t'.dout = t.dout :=
  ⟨_, _, step_eq s, step_eq s', h⟩

/-- With `DIR` = 1 the block's function is `DEC_top` of the half operand (R99, R101). -/
theorem State.blockAnswer_decode {s : State} (h : commandDir s.cmd = true) :
    s.blockAnswer = decodeTop s.hasNative Config.nativeDecNonfinite s.operandHalf :=
  State.blockAnswer_of_dir h 0

/-- The half operand is the low 16 bits of `din` (R46). -/
theorem State.operandHalf_toNat (s : State) : s.operandHalf.toNat = s.din.toNat % 2 ^ 16 := by
  simp [State.operandHalf]

/-- Two decodes of one half operand under one build have one answer: no other bit of `cmd` or `din` is read. -/
theorem State.blockAnswer_decode_congr {s s' : State} (h : commandDir s.cmd = true) (h' : commandDir s'.cmd = true)
    (hbuild : s'.hasNative = s.hasNative) (hhalf : s'.operandHalf = s.operandHalf) :
    s'.blockAnswer = s.blockAnswer := by
  rw [State.blockAnswer_decode h, State.blockAnswer_decode h', hbuild, hhalf]

/-- Settles O5: both spellings are decodes of the one operand. -/
theorem decodeSpellingsAgree : Obligations.DecodeSpellingsAgree :=
  fun _ _ _ hc hc' => step_dout_congr (State.blockAnswer_decode_congr hc hc' rfl rfl)

/-- Settles O16: operands with the same low 16 bits are one half operand. -/
theorem decodeIgnoresUpperOperand : Obligations.DecodeIgnoresUpperOperand := by
  intro s d hdir hlow
  have hhalf : State.operandHalf { s with din := d } = s.operandHalf := by
    apply BitVec.eq_of_toNat_eq
    rw [State.operandHalf_toNat, State.operandHalf_toNat, hlow]
  exact step_dout_congr (State.blockAnswer_decode_congr hdir hdir rfl hhalf)

end Sys2Proof.Machine
end

section
/-! PROOFS. The output's form: it follows from `dout` showing the block's function, as it does after every step and at
reset (R46, R68). -/

namespace Sys2Proof.Machine

open Sys2Proof.Safety

/-! ### The upper half of an encode's result (R46) -/

theorem decodeVariant_isDecode : ∀ v : BitVec 3, (decodeVariant v).isDecode = false := by decide

/-- Every encoder answers a half pattern placed on the port. -/
theorem answerOf_encode {i : Instr} (hi : i.isDecode = false) (s : State) : ∃ hw, answerOf i s = placeHalf hw := by
  cases i with
  | dec v => cases hi
  | _ => exact ⟨_, rfl⟩

theorem placeHalf_upper (hw : Half) : (placeHalf hw).extractLsb' 16 16 = 0#16 := by
  apply BitVec.eq_of_toNat_eq
  rw [BitVec.extractLsb'_toNat, placeHalf_toNat, Nat.shiftRight_eq_div_pow, Nat.div_eq_of_lt hw.isLt]
  rfl

/-- With `DIR` = 0 the block's answer has a zero upper half, whichever encoder `VARIANT` names. -/
theorem State.blockAnswer_upper {s : State} (h : commandDir s.cmd = false) :
    s.blockAnswer.extractLsb' 16 16 = 0#16 := by
  obtain ⟨hw, hanswer⟩ := answerOf_encode (decodeVariant_isDecode (commandVariant s.cmd)) s
  rw [State.blockAnswer_of_not_dir h, hanswer, placeHalf_upper]

/-! ### The low mantissa bits of a decode's result (R68, R99) -/

/-- `DEC` widens a 10-bit mantissa to 23 bits, so 13 low bits stay zero; a subnormal's is shifted further still. -/
theorem decodeHalf_dvd (h : Half) : 2 ^ 13 ∣ (decodeHalf h).toNat := by
  by_cases he : halfExp h = 0
  · by_cases hm : halfMant h = 0
    · rw [decodeHalf_toNat_zero h he hm]
      omega
    · obtain ⟨hk, -, -⟩ := msbIndex_spec _ hm (halfMant_lt h)
      have hshift : 2 ^ 13 ∣ (halfMant h - 2 ^ msbIndex (halfMant h)) * 2 ^ (23 - msbIndex (halfMant h)) :=
        (Nat.pow_dvd_pow 2 (by omega)).mul_left _
      rw [decodeHalf_toNat_subnormal h he hm]
      omega
  · rw [decodeHalf_toNat_of_exp h he]
    omega

theorem decodeHalf_lowBits (h : Half) : (decodeHalf h).extractLsb' 0 13 = 0#13 := by
  apply BitVec.eq_of_toNat_eq
  rw [BitVec.extractLsb'_toNat]
  exact Nat.mod_eq_zero_of_dvd (decodeHalf_dvd h)

/-- Where the spec fixes the result, the top level is `DEC` in either build (R99). -/
theorem decodeTop_of_fixed {hasNative : Bool} {h : Half} (hfix : hasNative = false ∨ halfExp h ≠ 31)
    (nonfinite : Half → Single) : decodeTop hasNative nonfinite h = decodeHalf h := by
  unfold decodeTop
  split_ifs with hn he
  · rfl
  · rfl
  · exact absurd hfix (not_or.mpr ⟨hn, he⟩)

/-- The exponent field of the half operand is `din[14:10]` (R39, R46). -/
theorem State.operandHalf_exp (s : State) : halfExp s.operandHalf = (s.din.extractLsb' 10 5).toNat := by
  rw [halfExp_eq, State.operandHalf_toNat, BitVec.extractLsb'_toNat, Nat.shiftRight_eq_div_pow]
  omega

/-- With `DIR` = 1 and a result the spec fixes, the low 13 bits of the block's answer are zero. -/
theorem State.blockAnswer_lowBits {s : State} (h : commandDir s.cmd = true)
    (hfix : s.hasNative = false ∨ s.din.extractLsb' 10 5 ≠ 31#5) : s.blockAnswer.extractLsb' 0 13 = 0#13 := by
  have hhalf : s.hasNative = false ∨ halfExp s.operandHalf ≠ 31 := by
    rw [State.operandHalf_exp]
    exact hfix.imp_right fun hne heq => hne (BitVec.eq_of_toNat_eq heq)
  rw [State.blockAnswer_decode h, decodeTop_of_fixed hhalf, decodeHalf_lowBits]

/-! ### The statements about the output's form -/

/-- An output port that shows the block's function has the output's form. -/
theorem outputPlaced_of_settled {s : State} (h : Settled s) : OutputPlaced s := by
  constructor
  · intro hdir
    rw [h, State.blockAnswer_upper hdir]
  · intro hdir hfix
    rw [h, State.blockAnswer_lowBits hdir hfix]

/-- Settles O11: every step settles the output, whatever its form was before. -/
theorem outputFormKept : Obligations.OutputFormKept :=
  fun s t _ hstep => outputPlaced_of_settled (outputFollowsInputs s t hstep)

/-- Settles O12: the reset state is settled. -/
theorem outputFormAtReset : Obligations.OutputFormAtReset := outputPlaced_of_settled State.settled_reset

end Sys2Proof.Machine
end

section
/-! PROOFS. The sub-blocks: the exponent_bias_adjuster (R50), the rounder (R54, R55, R57) and the internal
floating-point unit's three functions against the values they compute (R58 to R63). -/

namespace Sys2Proof.Machine

/-! ### The bias adjuster and the rounder's table -/

/-- Settles O18: `eba_enc` subtracts 112, and every comparison is then one of `E` with a constant. -/
theorem biasAdjusterEncode : Obligations.BiasAdjusterEncode := by
  intro E hE
  rw [ebaEnc_eq]
  refine ⟨rfl, ?_, ?_, ?_, ?_, ?_, ?_, ?_⟩ <;> omega

/-- Settles O19: each mode is one row of the definition's own table. -/
theorem roundIncrementTable : Obligations.RoundIncrementTable := fun _ _ _ => ⟨rfl, rfl, rfl⟩

/-! ### The discarded bits (R55) -/

theorem split_guard_eq_testBit (x n : Nat) : (split x n).guard = x.testBit (n - 1) := by
  rw [split_guard, Nat.testBit_eq_decide_div_mod_eq]

theorem split_sticky_iff (x n : Nat) : (split x n).sticky = true ↔ x % 2 ^ (n - 1) ≠ 0 := by
  rw [split_sticky, decide_eq_true_iff]

/-- The discarded bits are the guard bit, worth halfway, above the bits that `sticky` summarises. -/
theorem discarded_eq (x : Nat) {n : Nat} (hn : 1 ≤ n) :
    x % 2 ^ n = x % 2 ^ (n - 1) + 2 ^ (n - 1) * (split x n).guard.toNat := by
  obtain ⟨k, rfl⟩ := Nat.exists_eq_add_of_le' hn
  rw [pow_succ, Nat.mod_mul, split_guard, Nat.add_sub_cancel]
  rcases Nat.mod_two_eq_zero_or_one (x / 2 ^ k) with h | h <;> rw [h] <;> rfl

/-- Settles O20: with the guard bit 0 the discarded bits stay below halfway, and with the guard bit 1 they exceed it by
the bits that `sticky` summarises. -/
theorem splitSummarisesDiscardedBits : Obligations.SplitSummarisesDiscardedBits := by
  intro x n hn
  have hsticky := split_sticky_iff x n
  have hdiscarded := discarded_eq x hn
  have hlow : x % 2 ^ (n - 1) < 2 ^ (n - 1) := Nat.mod_lt _ (Nat.two_pow_pos _)
  have hone : n = 1 → (split x n).sticky = false := by
    rintro rfl
    rw [split_sticky, Nat.sub_self, pow_zero, Nat.mod_one]
    rfl
  refine ⟨split_q x n, split_guard_eq_testBit x n, hsticky, hone, ?_⟩
  rw [Bool.eq_false_iff (b := (split x n).sticky), Ne, hsticky, hdiscarded]
  cases (split x n).guard with
  | false =>
    simp only [Bool.toNat_false, mul_zero, add_zero, Bool.false_eq_true, false_and, iff_false, iff_true]
    omega
  | true =>
    simp only [Bool.toNat_true, mul_one, true_and, Bool.true_eq_false, iff_false]
    omega

/-! ### Rounding to nearest, ties to even (R57, R59) -/

/-- `q` steps of size `d` are nearest to `x`, and `q` is even when `x` is halfway between two steps. -/
def RoundsToNearestEven (q x d : Nat) : Prop :=
  2 * ((q * d : Nat) - (x : Int)).natAbs ≤ d ∧ (2 * ((q * d : Nat) - (x : Int)).natAbs = d → q % 2 = 0)

/-- Below half a step, 0 is nearest. -/
theorem roundsToNearestEven_zero {x d : Nat} (h : 2 * x < d) : RoundsToNearestEven 0 x d := by
  unfold RoundsToNearestEven
  omega

/-- Counted in a unit `k` times as small, the same number of steps is nearest. -/
theorem RoundsToNearestEven.scale {q x d : Nat} (h : RoundsToNearestEven q x d) {k : Nat} (hk : 0 < k) :
    RoundsToNearestEven q (x * k) (d * k) := by
  have hdist : 2 * ((q * (d * k) : Nat) - ((x * k : Nat) : Int)).natAbs =
      2 * ((q * d : Nat) - (x : Int)).natAbs * k := by
    have hfactor : ((q * (d * k) : Nat) - ((x * k : Nat) : Int)) = ((q * d : Nat) - (x : Int)) * (k : Int) := by
      push_cast
      ring
    rw [hfactor, Int.natAbs_mul, Int.natAbs_natCast, Nat.mul_assoc]
  obtain ⟨hnear, htie⟩ := h
  rw [RoundsToNearestEven, hdist]
  exact ⟨Nat.mul_le_mul_right k hnear, fun heq => htie (Nat.eq_of_mul_eq_mul_right hk heq)⟩

/-- `rne_shr(x, n)` steps of size `2^n` are nearest to `x`: the distance is the remainder when it rounds down, and what
the remainder lacks of a step when it rounds up. -/
theorem rneShr_roundsToNearestEven (x n : Nat) : RoundsToNearestEven (rneShr x n) x (2 ^ n) := by
  rcases Nat.eq_zero_or_pos n with rfl | hn
  · simp [RoundsToNearestEven, rneShr]
  · have hstep : 2 ^ n = 2 * 2 ^ (n - 1) := by rw [← pow_succ', Nat.sub_add_cancel hn]
    have hr : x % 2 ^ n < 2 ^ n := Nat.mod_lt _ (Nat.two_pow_pos n)
    have hx : x / 2 ^ n * 2 ^ n + x % 2 ^ n = x := Nat.div_add_mod' x (2 ^ n)
    rw [RoundsToNearestEven, rneShr_eq x n hn]
    split_ifs with hup
    · rw [Nat.succ_mul (x / 2 ^ n)]
      omega
    · rw [Nat.add_zero]
      omega

theorem rneShr_zero (x : Nat) : rneShr x 0 = x := if_pos rfl

/-- Below halfway of the first step, `rne_shr` is 0. -/
theorem rneShr_eq_zero {x n : Nat} (hn : 1 ≤ n) (hx : x < 2 ^ (n - 1)) : rneShr x n = 0 := by
  have hle : 2 ^ (n - 1) ≤ 2 ^ n := Nat.pow_le_pow_right (by omega) (by omega)
  rw [rneShr_eq x n hn, Nat.div_eq_of_lt (by omega), Nat.mod_eq_of_lt (by omega), if_neg (by omega)]

/-- Settles O21: the distances are those of `rne_shr`'s nearest integer, and a dividend below halfway of the first step
gives 0. -/
theorem rneShrIsNearestEven : Obligations.RneShrIsNearestEven := by
  refine ⟨fun x n => ?_, rneShr_zero, fun x n hx hn => ?_, fun x n _ hx hn => ?_, fun x hlo hhi => ?_, by decide⟩
  · obtain ⟨hnear, heven⟩ := rneShr_roundsToNearestEven x n
    exact ⟨hnear, fun _ => heven⟩
  · have hhalf : x < 2 ^ (n - 1) := hx.trans_le (Nat.pow_le_pow_right (by omega) (by omega))
    have hstep : x < 2 ^ n := hhalf.trans_le (Nat.pow_le_pow_right (by omega) (by omega))
    refine ⟨?_, ?_, rneShr_eq_zero (by omega) hhalf⟩
    · rw [split_q, Nat.div_eq_of_lt hstep]
    · rw [split_guard_eq_testBit, Nat.testBit_lt_two_pow hhalf]
  · exact rneShr_of_large (by omega) hn
  · rw [rneShr_eq x 24 (by omega)]
    split_ifs <;> omega

/-! ### Patterns by their fields (R38, R40) -/

/-- A pattern that is an exponent field beside a mantissa has those fields. -/
theorem single_fields_of_toNat {f : Single} {E M : Nat} (hf : f.toNat = E * 2 ^ 23 + M) (hE : E < 256)
    (hM : M < 2 ^ 23) : singleExp f = E ∧ singleMant f = M := by
  rw [singleExp_eq, singleMant_eq]
  omega

/-- A finite pattern with sign 0 denotes the magnitude of its fields. -/
theorem val32_of_toNat {f : Single} {E M : Nat} (hf : f.toNat = E * 2 ^ 23 + M) (hE : E < 255)
    (hM : M < 2 ^ 23) : val32 f = .finite false (singleUnits E M) := by
  obtain ⟨hexp, hmant⟩ := single_fields_of_toNat hf (by omega) hM
  have hsign : singleSign f = false := by
    rw [← Bool.toNat_eq_zero, singleSign_eq]
    omega
  rw [val32, hexp, hmant, hsign, if_neg (by omega)]

theorem singleUnits_of_pos {E : Nat} (hE : 1 ≤ E) (M : Nat) : singleUnits E M = (2 ^ 23 + M) * 2 ^ (E - 1) :=
  if_neg (by omega)

theorem singleUnits_zero (M : Nat) : singleUnits 0 M = M := if_pos rfl

/-- The patterns below `2^24`, the subnormals and the least normals, count their own units. -/
theorem singleUnits_of_toNat_lt {f : Single} (hf : f.toNat < 2 ^ 24) :
    singleUnits (singleExp f) (singleMant f) = f.toNat := by
  rcases Nat.lt_or_ge f.toNat (2 ^ 23) with h | h
  · obtain ⟨hexp, hmant⟩ := single_fields_of_toNat (f := f) (E := 0) (M := f.toNat) (by omega) (by omega) h
    rw [hexp, hmant, singleUnits_zero]
  · obtain ⟨hexp, hmant⟩ :=
      single_fields_of_toNat (f := f) (E := 1) (M := f.toNat - 2 ^ 23) (by omega) (by omega) (by omega)
    rw [hexp, hmant, singleUnits_of_pos le_rfl]
    omega

/-- A magnitude reaches the least one with exponent field `k + 1` exactly when its own field reaches `k + 1`. -/
theorem le_singleUnits_iff {E M : Nat} (hM : M < 2 ^ 23) (k : Nat) :
    2 ^ 23 * 2 ^ k ≤ singleUnits E M ↔ k + 1 ≤ E := by
  have hk : 0 < 2 ^ k := Nat.two_pow_pos k
  constructor
  · contrapose!
    intro hE
    rcases Nat.eq_zero_or_pos E with rfl | hpos
    · rw [singleUnits_zero]
      omega
    · calc singleUnits E M = (2 ^ 23 + M) * 2 ^ (E - 1) := singleUnits_of_pos hpos M
        _ < 2 ^ 24 * 2 ^ (E - 1) := Nat.mul_lt_mul_of_pos_right (by omega) (Nat.two_pow_pos _)
        _ = 2 ^ 23 * 2 ^ E := by rw [← pow_add, ← pow_add, show 24 + (E - 1) = 23 + E by omega]
        _ ≤ 2 ^ 23 * 2 ^ k := Nat.mul_le_mul_left _ (Nat.pow_le_pow_right (by omega) (by omega))
  · intro hE
    rw [singleUnits_of_pos (by omega)]
    exact Nat.mul_le_mul (by omega) (Nat.pow_le_pow_right (by omega) (by omega))

/-- The significand of a normal single, shifted right by `rne_shr` to where a step is `2^k` units, is the magnitude
rounded to such steps. -/
theorem rneShr_roundsUnits {E k : Nat} (hE : 1 ≤ E) (hk : E ≤ k + 1) (M : Nat) :
    RoundsToNearestEven (rneShr (2 ^ 23 + M) (k + 1 - E)) (singleUnits E M) (2 ^ k) := by
  have h := (rneShr_roundsToNearestEven (2 ^ 23 + M) (k + 1 - E)).scale (Nat.two_pow_pos (E - 1))
  rwa [← singleUnits_of_pos hE, ← pow_add, show k + 1 - E + (E - 1) = k by omega] at h

/-! ### `scale_m112` (R61) -/

/-- Below the normal results `scale_m112` answers a subnormal or the least normal. -/
theorem scaleM112_le (ftz : Bool) {a : Single} (h : singleExp a ≤ 112) : (scaleM112 ftz a).toNat ≤ 2 ^ 23 := by
  have hM := singleMant_lt a
  rcases Nat.eq_zero_or_pos (singleExp a) with h0 | hpos
  · simp [scaleM112_exp_zero ftz a h0]
  · cases ftz with
    | true => simp [scaleM112_flush a h]
    | false =>
      rw [scaleM112_subnormal a hpos h]
      have hle := rneShr_le (2 ^ 23 + singleMant a) (113 - singleExp a)
      have hhalf : (2 ^ 23 + singleMant a) / 2 ^ (113 - singleExp a) < 2 ^ 23 := by
        apply Nat.div_lt_of_lt_mul
        have : 2 ^ 1 ≤ 2 ^ (113 - singleExp a) := Nat.pow_le_pow_right (by omega) (by omega)
        omega
      omega

/-- Without `FTZ` its result there, counted in units, is the operand's magnitude over `2^112`, rounded. -/
theorem scaleM112_roundsToNearestEven {a : Single} (h : singleExp a ≤ 112) :
    RoundsToNearestEven (scaleM112 false a).toNat (singleUnits (singleExp a) (singleMant a)) (2 ^ 112) := by
  have hM := singleMant_lt a
  rcases Nat.eq_zero_or_pos (singleExp a) with h0 | hpos
  · rw [scaleM112_exp_zero false a h0, h0, singleUnits_zero]
    exact roundsToNearestEven_zero (by omega)
  · rw [scaleM112_subnormal a hpos h]
    exact rneShr_roundsUnits hpos (by omega) _

/-- A normal result is exact: the exponent field alone goes down by 112. -/
theorem scaleM112_exact (ftz : Bool) {a : Single} (h : 113 ≤ singleExp a) (hpos : a.toNat < 2 ^ 31) :
    singleUnits (singleExp (scaleM112 ftz a)) (singleMant (scaleM112 ftz a)) * 2 ^ 112 =
      singleUnits (singleExp a) (singleMant a) := by
  have hE := singleExp_lt a
  have hp : (scaleM112 ftz a).toNat = (singleExp a - 112) * 2 ^ 23 + singleMant a := by
    have hexp := singleExp_eq a
    have hmant := singleMant_eq a
    rw [scaleM112_of_ge ftz a h]
    omega
  obtain ⟨hexp, hmant⟩ := single_fields_of_toNat hp (by omega) (singleMant_lt a)
  rw [hexp, hmant, singleUnits_of_pos (by omega), singleUnits_of_pos (by omega), Nat.mul_assoc, ← pow_add,
    show singleExp a - 112 - 1 + 112 = singleExp a - 1 by omega]

/-- Settles O22: the product is at least 2^-126 exactly when the exponent field is at least 113. -/
theorem scaleIsRoundedMultiplication : Obligations.ScaleIsRoundedMultiplication := by
  intro z a ha
  have hthreshold := le_singleUnits_iff (E := singleExp a) (singleMant_lt a) 112
  rcases Nat.lt_or_ge (singleExp a) 113 with h | h
  · have hlt := Nat.not_le.mp (mt hthreshold.mp (by omega))
    have hle := scaleM112_le z (a := a) (by omega)
    refine ⟨by omega, fun hge => absurd hge hlt.not_ge, ?_, ?_⟩
    · rintro - rfl
      exact scaleM112_flush a (by omega)
    · rintro - rfl
      rw [singleUnits_of_toNat_lt (f := scaleM112 false a) (by omega)]
      exact scaleM112_roundsToNearestEven (by omega)
  · have hge := hthreshold.mpr h
    refine ⟨?_, fun _ => scaleM112_exact z h (by omega), fun hlt => absurd hge hlt.not_ge,
      fun hlt => absurd hge hlt.not_ge⟩
    rw [scaleM112_of_ge z a h]
    omega

/-! ### `add_half` (R62) -/

/-- On its domain the operand is at most 2^10 steps of 2^-24. -/
theorem addHalfUnits_le {a : Single} (h : singleExp a ≤ 112) : addHalfUnits a ≤ 2 ^ 10 := by
  rcases Nat.eq_zero_or_pos (singleExp a) with h0 | hpos
  · simp [addHalfUnits_zero a h0]
  · rw [addHalfUnits_pos a hpos]
    have hle := rneShr_le (2 ^ 23 + singleMant a) (126 - singleExp a)
    have hq := subnormal_q_lt (M := singleMant a) (n := 126 - singleExp a) (singleMant_lt a) (by omega)
    omega

/-- The steps of 2^-24 that `add_half` adds are the operand's magnitude, rounded; such a step is `2^125` units. -/
theorem addHalfUnits_roundsToNearestEven {a : Single} (h : singleExp a ≤ 112) :
    RoundsToNearestEven (addHalfUnits a) (singleUnits (singleExp a) (singleMant a)) (2 ^ 125) := by
  have hM := singleMant_lt a
  rcases Nat.eq_zero_or_pos (singleExp a) with h0 | hpos
  · rw [addHalfUnits_zero a h0, h0, singleUnits_zero]
    exact roundsToNearestEven_zero (by omega)
  · rw [addHalfUnits_pos a hpos]
    exact rneShr_roundsUnits hpos (by omega) _

/-- `add_half` steps up from 0.5, which is the pattern with exponent field 126 and mantissa 0. -/
theorem addHalf_toNat {a : Single} (h : singleExp a ≤ 112) : (addHalf a).toNat = 126 * 2 ^ 23 + addHalfUnits a := by
  have hle := addHalfUnits_le h
  rw [addHalf, BitVec.toNat_add, BitVec.toNat_ofNat, BitVec.toNat_ofNat]
  omega

/-- Settles O23: the sum is 2^23 steps of 2^-24 and the operand rounded to such steps. -/
theorem addHalfIsRoundedAddition : Obligations.AddHalfIsRoundedAddition := by
  intro a ha
  have hE : singleExp a ≤ 112 := by
    rw [singleExp_eq]
    omega
  have hle := addHalfUnits_le hE
  have hp := addHalf_toNat hE
  obtain ⟨hnear, heven⟩ := addHalfUnits_roundsToNearestEven hE
  refine ⟨by omega, by omega, _, val32_of_toNat hp (by omega) (by omega), ?_⟩
  have hdist : (singleUnits 126 (addHalfUnits a) : Int) -
      (2 ^ 148 + singleUnits (singleExp a) (singleMant a) : Nat) =
      (addHalfUnits a * 2 ^ 125 : Nat) - (singleUnits (singleExp a) (singleMant a) : Int) := by
    rw [singleUnits_of_pos (E := 126) (by omega)]
    push_cast
    ring
  rw [hdist]
  refine ⟨hnear, fun htie => ?_⟩
  have hparity := heven htie
  omega

/-! ### `sub_magic` (R63) -/

/-- The mantissa of a renormalised `m`: with its hidden bit it is `m`, shifted up to bit 23. -/
theorem renormalised_mant {m k : Nat} (hk : k ≤ 23) (hlo : 2 ^ k ≤ m) (hhi : m < 2 ^ (k + 1)) :
    2 ^ 23 + (m - 2 ^ k) * 2 ^ (23 - k) = m * 2 ^ (23 - k) ∧ (m - 2 ^ k) * 2 ^ (23 - k) < 2 ^ 23 := by
  have hp : 2 ^ k * 2 ^ (23 - k) = 2 ^ 23 := by rw [← pow_add, Nat.add_sub_cancel' hk]
  have hle : 2 ^ k * 2 ^ (23 - k) ≤ m * 2 ^ (23 - k) := Nat.mul_le_mul_right _ hlo
  have hlt : m * 2 ^ (23 - k) < 2 ^ (k + 1) * 2 ^ (23 - k) := Nat.mul_lt_mul_of_pos_right hhi (Nat.two_pow_pos _)
  rw [pow_succ, Nat.mul_right_comm] at hlt
  rw [Nat.sub_mul]
  omega

/-- The operand of `sub_magic` on its domain denotes 2^-14 and `m` steps of 2^-24. -/
theorem val32_subMagicOperand {m : Nat} (hm : m < 2 ^ 10) :
    val32 ((BitVec.ofNat 32 113 <<< 23) ||| (BitVec.ofNat 32 m <<< 13)) = .finite false (m * 2 ^ 125 + 2 ^ 135) := by
  rw [val32_of_toNat (decodeWord_toNat 113 m (by omega) hm) (by omega) (by omega), singleUnits_of_pos (by omega),
    show (2 ^ 23 + m * 2 ^ 13) * 2 ^ (113 - 1) = m * 2 ^ 125 + 2 ^ 135 by ring]

/-- `sub_magic` leaves the `m` steps of 2^-24. -/
theorem val32_subMagic {m : Nat} (hm : m < 2 ^ 10) :
    val32 (subMagic ((BitVec.ofNat 32 113 <<< 23) ||| (BitVec.ofNat 32 m <<< 13))) = .finite false (m * 2 ^ 125) := by
  rcases Nat.eq_zero_or_pos m with rfl | hpos
  · decide
  · obtain ⟨hk, hlo, hhi⟩ := msbIndex_spec m hpos.ne' hm
    obtain ⟨hsig, hmant⟩ := renormalised_mant (by omega) hlo hhi
    rw [val32_of_toNat (subMagic_toNat m hpos.ne' hm) (by omega) hmant, singleUnits_of_pos (by omega), hsig,
      Nat.mul_assoc, ← pow_add, show 23 - msbIndex m + (103 + msbIndex m - 1) = 125 by omega]

/-- Settles O24: both sides are `m` steps of 2^-24, the operand's above 2^-14. -/
theorem subMagicIsExactSubtraction : Obligations.SubMagicIsExactSubtraction :=
  fun _ hm => ⟨_, _, val32_subMagicOperand hm, val32_subMagic hm, rfl⟩

end Sys2Proof.Machine
end

section
/-! PROOFS. The decoder: `DEC` by the fields of its result, and from those its answer, its exactness, its categories,
its datapath and the set of its results (R67 to R70). -/

namespace Sys2Proof.Machine

/-! ### Patterns by all three fields (R38, R39) -/

/-- A sign is read back from its number. -/
theorem bool_toNat_injective : Function.Injective Bool.toNat := Function.LeftInverse.injective Bool.ofNat_toNat

/-- The three fields of a single pattern (R38). -/
structure HasFields (f : Single) (S : Bool) (E M : Nat) : Prop where
  sign : singleSign f = S
  exp : singleExp f = E
  mant : singleMant f = M

/-- A pattern that is three fields side by side has those fields. -/
theorem hasFields_of_toNat {f : Single} {S : Bool} {E M : Nat} (hf : f.toNat = S.toNat * 2 ^ 31 + E * 2 ^ 23 + M)
    (hE : E < 256) (hM : M < 2 ^ 23) : HasFields f S E M := by
  refine ⟨bool_toNat_injective ?_, ?_, ?_⟩
  · rw [singleSign_eq]
    omega
  · rw [singleExp_eq]
    omega
  · rw [singleMant_eq]
    omega

theorem HasFields.toNat_eq {f : Single} {S : Bool} {E M : Nat} (hf : HasFields f S E M) :
    f.toNat = S.toNat * 2 ^ 31 + E * 2 ^ 23 + M := by
  obtain ⟨rfl, rfl, rfl⟩ := hf
  exact single_fields f

/-- The fields determine the pattern. -/
theorem HasFields.unique {f g : Single} {S : Bool} {E M : Nat} (hf : HasFields f S E M) (hg : HasFields g S E M) :
    f = g :=
  BitVec.eq_of_toNat_eq (hf.toNat_eq.trans hg.toNat_eq.symm)

/-- The half pattern with the given fields (R39). -/
def halfOfFields (S : Bool) (e m : Nat) : Half := withHalfSign S (BitVec.ofNat 16 (e * 2 ^ 10 + m))

theorem halfOfFields_toNat (S : Bool) {e m : Nat} (he : e < 32) (hm : m < 2 ^ 10) :
    (halfOfFields S e m).toNat = S.toNat * 2 ^ 15 + (e * 2 ^ 10 + m) := by
  have hw : (BitVec.ofNat 16 (e * 2 ^ 10 + m)).toNat = e * 2 ^ 10 + m := by
    rw [BitVec.toNat_ofNat]
    exact Nat.mod_eq_of_lt (by omega)
  rw [halfOfFields, withHalfSign_toNat _ _ (by omega), hw]

/-- The pattern with a half's own fields is that half. -/
theorem halfOfFields_self (h : Half) : halfOfFields (halfSign h) (halfExp h) (halfMant h) = h := by
  apply BitVec.eq_of_toNat_eq
  rw [halfOfFields_toNat _ (halfExp_lt h) (halfMant_lt h), half_fields h]
  omega

theorem halfOfFields_fields (S : Bool) {e m : Nat} (he : e < 32) (hm : m < 2 ^ 10) :
    halfSign (halfOfFields S e m) = S ∧ halfExp (halfOfFields S e m) = e ∧ halfMant (halfOfFields S e m) = m := by
  have hh := halfOfFields_toNat S he hm
  refine ⟨bool_toNat_injective ?_, ?_, ?_⟩
  · rw [halfSign_eq]
    omega
  · rw [halfExp_eq]
    omega
  · rw [halfMant_eq]
    omega

/-- The four kinds of operand that `DEC` tells apart (R68). -/
theorem half_cases (h : Half) :
    halfExp h = 31 ∨ (1 ≤ halfExp h ∧ halfExp h ≤ 30) ∨ (halfExp h = 0 ∧ halfMant h = 0) ∨
      (halfExp h = 0 ∧ halfMant h ≠ 0) := by
  have := halfExp_lt h
  omega

/-! ### The fields of a `DEC` result (R68) -/

theorem ebaDec_nonfinite : ebaDec 31 = 255 := rfl

theorem ebaDec_normal {e : Nat} (h1 : 1 ≤ e) (h2 : e ≤ 30) : ebaDec e = e + 112 := by
  rw [ebaDec, if_neg (by omega), if_neg (by omega)]

/-- The leading 1 of a mantissa (R66) is where the library's logarithm finds it. -/
theorem msbIndex_eq_log2 {m : Nat} (h0 : m ≠ 0) (hm : m < 2 ^ 10) : msbIndex m = Nat.log2 m := by
  obtain ⟨-, hlo, hhi⟩ := msbIndex_spec m h0 hm
  exact ((Nat.log2_eq_iff h0).mpr ⟨hlo, hhi⟩).symm

theorem log2_le_nine {m : Nat} (h0 : m ≠ 0) (hm : m < 2 ^ 10) : Nat.log2 m ≤ 9 :=
  Nat.le_of_lt_succ ((Nat.log2_lt h0).mpr hm)

/-- The mantissa of a decoded subnormal: with its hidden bit it is `m`, shifted up to bit 23. -/
theorem log2_renormalised {m : Nat} (h0 : m ≠ 0) (hm : m < 2 ^ 10) :
    2 ^ 23 + (m - 2 ^ Nat.log2 m) * 2 ^ (23 - Nat.log2 m) = m * 2 ^ (23 - Nat.log2 m) ∧
      (m - 2 ^ Nat.log2 m) * 2 ^ (23 - Nat.log2 m) < 2 ^ 23 :=
  renormalised_mant ((log2_le_nine h0 hm).trans (by omega)) (Nat.log2_self_le h0) Nat.lt_log2_self

/-- An infinity or a NaN keeps its payload. -/
theorem decodeHalf_nonfinite {h : Half} (he : halfExp h = 31) :
    HasFields (decodeHalf h) (halfSign h) 255 (halfMant h * 2 ^ 13) := by
  have hm := halfMant_lt h
  have hd := decodeHalf_toNat_of_exp h (by omega)
  rw [he, ebaDec_nonfinite] at hd
  exact hasFields_of_toNat hd (by omega) (by omega)

/-- A normal is rebiased by 112. -/
theorem decodeHalf_normal {h : Half} (h1 : 1 ≤ halfExp h) (h2 : halfExp h ≤ 30) :
    HasFields (decodeHalf h) (halfSign h) (halfExp h + 112) (halfMant h * 2 ^ 13) := by
  have hm := halfMant_lt h
  have hd := decodeHalf_toNat_of_exp h (by omega)
  rw [ebaDec_normal h1 h2] at hd
  exact hasFields_of_toNat hd (by omega) (by omega)

/-- A zero stays a zero. -/
theorem decodeHalf_zero {h : Half} (he : halfExp h = 0) (hm : halfMant h = 0) :
    HasFields (decodeHalf h) (halfSign h) 0 0 := by
  apply hasFields_of_toNat
  · rw [decodeHalf_toNat_zero h he hm, Nat.zero_mul, Nat.add_zero]
  · decide
  · decide

/-- A subnormal is renormalised on its leading 1. -/
theorem decodeHalf_subnormal {h : Half} (he : halfExp h = 0) (hm : halfMant h ≠ 0) :
    HasFields (decodeHalf h) (halfSign h) (103 + Nat.log2 (halfMant h))
      ((halfMant h - 2 ^ Nat.log2 (halfMant h)) * 2 ^ (23 - Nat.log2 (halfMant h))) := by
  have hk := log2_le_nine hm (halfMant_lt h)
  have hd := decodeHalf_toNat_subnormal h he hm
  rw [msbIndex_eq_log2 hm (halfMant_lt h)] at hd
  exact hasFields_of_toNat hd (by omega) (log2_renormalised hm (halfMant_lt h)).2

/-! ### The instruction `DEC` where the spec fixes its result (R99) -/

/-- The fields of the half operand as those of `din[15:0]` (R46). -/
theorem State.operandHalf_fields (s : State) :
    (halfSign s.operandHalf).toNat = s.din.toNat / 2 ^ 15 % 2 ∧
      halfExp s.operandHalf = s.din.toNat / 2 ^ 10 % 2 ^ 5 ∧ halfMant s.operandHalf = s.din.toNat % 2 ^ 10 := by
  rw [halfSign_eq, halfExp_eq, halfMant_eq, State.operandHalf_toNat]
  omega

/-- Where the spec fixes the result, `DEC` drives `dout` with R68's function of the half operand. -/
theorem exec_dec {s : State} (hfix : s.hasNative = false ∨ s.din.toNat / 2 ^ 10 % 2 ^ 5 ≠ 31) (v : BitVec 3) :
    exec (.dec v) s = .next (s.answer (decodeHalf s.operandHalf)) := by
  obtain ⟨-, hexp, -⟩ := s.operandHalf_fields
  rw [← hexp] at hfix
  rw [exec_eq, answerOf, decodeTop_of_fixed hfix]

/-- The result of `DEC` as a number: the fields of R68's four branches side by side. -/
theorem decodeHalf_toNat (h : Half) :
    (decodeHalf h).toNat = (halfSign h).toNat * 2 ^ 31 +
      if halfExp h = 31 then 255 * 2 ^ 23 + halfMant h * 2 ^ 13
      else if halfExp h ≠ 0 then (halfExp h + 112) * 2 ^ 23 + halfMant h * 2 ^ 13
      else if halfMant h = 0 then 0
      else (103 + Nat.log2 (halfMant h)) * 2 ^ 23 +
        (halfMant h - 2 ^ Nat.log2 (halfMant h)) * 2 ^ (23 - Nat.log2 (halfMant h)) := by
  rcases half_cases h with he | ⟨h1, h2⟩ | ⟨he, hm⟩ | ⟨he, hm⟩
  · rw [(decodeHalf_nonfinite he).toNat_eq, if_pos he, Nat.add_assoc]
  · rw [(decodeHalf_normal h1 h2).toNat_eq, if_neg (by omega), if_pos (by omega), Nat.add_assoc]
  · rw [(decodeHalf_zero he hm).toNat_eq, if_neg (by omega), if_neg (by omega), if_pos hm, Nat.zero_mul]
  · rw [(decodeHalf_subnormal he hm).toNat_eq, if_neg (by omega), if_neg (by omega), if_neg hm, Nat.add_assoc]

/-- Settles O25: `dout` is the number whose fields are those of R68's four branches, read off `din[15:0]`. -/
theorem decAnswer : Obligations.DecAnswer := by
  intro s v sg e m hfix
  obtain ⟨hsign, hexp, hmant⟩ := s.operandHalf_fields
  have hd := decodeHalf_toNat s.operandHalf
  rw [hsign, hexp, hmant] at hd
  have hword : decodeHalf s.operandHalf = BitVec.ofNat 32 (decodeHalf s.operandHalf).toNat := by simp
  rw [exec_dec hfix, State.answer, hword, hd]

/-! ### Exactness (R40, R41, R68) -/

theorem HasFields.val32_eq {f : Single} {S : Bool} {E M : Nat} (hf : HasFields f S E M) :
    val32 f = if E = 255 then if M = 0 then .infinity S else .nan else .finite S (singleUnits E M) := by
  obtain ⟨rfl, rfl, rfl⟩ := hf
  rfl

/-- A rebiased normal counts the same units. -/
theorem singleUnits_of_half {e : Nat} (he : 1 ≤ e) (m : Nat) :
    singleUnits (e + 112) (m * 2 ^ 13) = halfUnits e m := by
  rw [singleUnits_of_pos (by omega), halfUnits, if_neg (by omega), show e + 124 = 13 + (e + 112 - 1) by omega,
    pow_add 2 13]
  ring

/-- A renormalised subnormal counts the same units. -/
theorem singleUnits_renormalised {m : Nat} (h0 : m ≠ 0) (hm : m < 2 ^ 10) :
    singleUnits (103 + Nat.log2 m) ((m - 2 ^ Nat.log2 m) * 2 ^ (23 - Nat.log2 m)) = halfUnits 0 m := by
  have hk := log2_le_nine h0 hm
  rw [singleUnits_of_pos (by omega), (log2_renormalised h0 hm).1, halfUnits, if_pos rfl, Nat.mul_assoc, ← pow_add,
    show 23 - Nat.log2 m + (103 + Nat.log2 m - 1) = 125 by omega]

/-- `DEC` keeps what a pattern denotes: a number, an infinity, or no number. -/
theorem val32_decodeHalf (h : Half) : val32 (decodeHalf h) = val16 h := by
  unfold val16
  rcases half_cases h with he | ⟨h1, h2⟩ | ⟨he, hm⟩ | ⟨he, hm⟩
  · simp [(decodeHalf_nonfinite he).val32_eq, he]
  · rw [(decodeHalf_normal h1 h2).val32_eq, if_neg (by omega), if_neg (by omega), singleUnits_of_half h1]
  · simp [(decodeHalf_zero he hm).val32_eq, he, hm, singleUnits, halfUnits]
  · have hk := log2_le_nine hm (halfMant_lt h)
    rw [(decodeHalf_subnormal he hm).val32_eq, if_neg (by omega), if_neg (by omega),
      singleUnits_renormalised hm (halfMant_lt h), he]

/-- Settles O26: `DEC` keeps what a pattern denotes, whatever it is. -/
theorem decIsExact : Obligations.DecIsExact :=
  fun s v _ hfix => ⟨_, exec_dec hfix v, val32_decodeHalf s.operandHalf⟩

/-! ### Categories (R42, R70) -/

/-- The quiet bit `f[22]` is the top bit of the mantissa field. -/
theorem HasFields.cat32_eq {f : Single} {S : Bool} {E M : Nat} (hf : HasFields f S E M) :
    cat32 f = categoryOf 255 E M (decide (2 ^ 22 ≤ M)) := by
  obtain ⟨rfl, rfl, rfl⟩ := hf
  have hq : f.getLsbD 22 = decide (2 ^ 22 ≤ singleMant f) := by
    rw [singleMant_eq, BitVec.getLsbD, Nat.testBit_eq_decide_div_mod_eq, decide_eq_decide]
    omega
  rw [cat32, hq]

/-- The quiet bit `h[9]` is the top bit of the mantissa field. -/
theorem cat16_eq (h : Half) : cat16 h = categoryOf 31 (halfExp h) (halfMant h) (decide (2 ^ 9 ≤ halfMant h)) := by
  have hq : h.getLsbD 9 = decide (2 ^ 9 ≤ halfMant h) := by
    rw [halfMant_eq, BitVec.getLsbD, Nat.testBit_eq_decide_div_mod_eq, decide_eq_decide]
    omega
  rw [cat16, hq]

/-- The middle exponent fields are those of the normals (R42). -/
theorem categoryOf_normal {Xmax X : Nat} (h0 : X ≠ 0) (hmax : X ≠ Xmax) (F : Nat) (q : Bool) :
    categoryOf Xmax X F q = .normal := by
  rw [categoryOf, if_neg h0, if_neg hmax]

/-- The greatest exponent field holds the infinity and both kinds of NaN (R42). -/
theorem categoryOf_max {Xmax : Nat} (h0 : Xmax ≠ 0) (F : Nat) (q : Bool) :
    categoryOf Xmax Xmax F q = if F = 0 then .infinity else if q then .quietNaN else .signalingNaN := by
  rw [categoryOf, if_neg h0, if_pos rfl]

theorem categoryOf_max_ne_subnormal {Xmax : Nat} (h0 : Xmax ≠ 0) (F : Nat) (q : Bool) :
    categoryOf Xmax Xmax F q ≠ .subnormal := by
  rw [categoryOf_max h0]
  split_ifs <;> decide

theorem categoryOf_subnormal {F : Nat} (hF : F ≠ 0) (Xmax : Nat) (q : Bool) :
    categoryOf Xmax 0 F q = .subnormal := by
  rw [categoryOf, if_pos rfl, if_neg hF]

/-- `DEC` keeps the category, but a subnormal half becomes a normal single. -/
theorem cat32_decodeHalf (h : Half) :
    cat32 (decodeHalf h) = if cat16 h = .subnormal then .normal else cat16 h := by
  rw [cat16_eq]
  rcases half_cases h with he | ⟨h1, h2⟩ | ⟨he, hm⟩ | ⟨he, hm⟩
  · have hpayload : halfMant h * 2 ^ 13 = 0 ↔ halfMant h = 0 := by omega
    have hquiet : 2 ^ 22 ≤ halfMant h * 2 ^ 13 ↔ 2 ^ 9 ≤ halfMant h := by omega
    rw [he, if_neg (categoryOf_max_ne_subnormal (by omega) _ _), (decodeHalf_nonfinite he).cat32_eq,
      categoryOf_max (by omega), categoryOf_max (by omega)]
    simp only [hpayload, hquiet]
  · rw [(decodeHalf_normal h1 h2).cat32_eq, categoryOf_normal (by omega) (by omega),
      categoryOf_normal (by omega) (by omega)]
    rfl
  · rw [(decodeHalf_zero he hm).cat32_eq, he, hm]
    rfl
  · have hk := log2_le_nine hm (halfMant_lt h)
    rw [(decodeHalf_subnormal he hm).cat32_eq, categoryOf_normal (by omega) (by omega), he, categoryOf_subnormal hm,
      if_pos rfl]

/-- Settles O27: each kind of operand by the fields of its result. -/
theorem decKeepsCategory : Obligations.DecKeepsCategory :=
  fun s v hfix => ⟨_, exec_dec hfix v, cat32_decodeHalf s.operandHalf⟩

/-! ### The source's datapath (R69) -/

/-- The shifted magnitude: the half's exponent field now stands where a single's does. -/
theorem shiftedMagnitude_toNat (h : Half) :
    ((h &&& 0x7FFF#16).setWidth 32 <<< 13).toNat = halfExp h * 2 ^ 23 + halfMant h * 2 ^ 13 := by
  have he := halfExp_eq h
  have hm := halfMant_eq h
  rw [BitVec.toNat_shiftLeft, BitVec.toNat_setWidth, BitVec.toNat_and, show (0x7FFF#16).toNat = 2 ^ 15 - 1 from rfl,
    Nat.and_two_pow_sub_one_eq_mod, Nat.shiftLeft_eq]
  omega

/-- The exponent mask keeps bits 27 to 23. -/
theorem exponentMask_toNat (o : Single) : (o &&& 0x0F800000#32).toNat = o.toNat / 2 ^ 23 % 2 ^ 5 * 2 ^ 23 := by
  have hs : o &&& 0x0F800000#32 = ((o >>> 23) &&& 31#32) <<< 23 := by
    have hc : (0x0F800000#32) = 31#32 <<< 23 := rfl
    apply BitVec.eq_of_getLsbD_eq
    intro i hi
    rw [hc]
    simp only [BitVec.getLsbD_and, BitVec.getLsbD_shiftLeft, BitVec.getLsbD_ushiftRight, hi]
    by_cases h : 23 ≤ i
    · simp [show ¬i < 23 by omega, Nat.add_sub_cancel' h]
    · simp [show i < 23 by omega]
  rw [hs, BitVec.toNat_shiftLeft, BitVec.toNat_and, BitVec.toNat_ushiftRight, Nat.shiftRight_eq_div_pow,
    show (31#32).toNat = 2 ^ 5 - 1 from rfl, Nat.and_two_pow_sub_one_eq_mod, Nat.shiftLeft_eq]
  omega

/-- "Sign bit is OR'd back in unconditionally": the datapath's spelling is R68's. -/
theorem or_sign_eq_withSingleSign (h : Half) (o : Single) :
    o ||| ((h &&& 0x8000#16).setWidth 32 <<< 16) = withSingleSign (halfSign h) o := by
  have hs : (h &&& 0x8000#16).setWidth 32 <<< 16 = (BitVec.ofBool (halfSign h)).setWidth 32 <<< 31 := by
    rw [show 0x8000#16 = BitVec.twoPow 16 15 from rfl, BitVec.and_twoPow, ← halfSign]
    cases halfSign h <;> rfl
  rw [hs, BitVec.or_comm, withSingleSign]

/-- The datapath's exponent test reads the half's exponent field. -/
theorem exponentMask_shifted (h : Half) :
    (((h &&& 0x7FFF#16).setWidth 32 <<< 13) &&& 0x0F800000#32).toNat = halfExp h * 2 ^ 23 := by
  have he := halfExp_lt h
  have hm := halfMant_lt h
  rw [exponentMask_toNat, shiftedMagnitude_toNat]
  omega

theorem exponentMask_eq_max_iff (h : Half) :
    ((h &&& 0x7FFF#16).setWidth 32 <<< 13) &&& 0x0F800000#32 = 0x0F800000#32 ↔ halfExp h = 31 := by
  rw [← BitVec.toNat_inj, exponentMask_shifted, BitVec.toNat_ofNat]
  omega

theorem exponentMask_eq_zero_iff (h : Half) :
    ((h &&& 0x7FFF#16).setWidth 32 <<< 13) &&& 0x0F800000#32 = 0#32 ↔ halfExp h = 0 := by
  rw [← BitVec.toNat_inj, exponentMask_shifted, BitVec.toNat_ofNat]
  omega

/-- A word that is an exponent field beside a shifted mantissa is R68's `word`. -/
theorem eq_decodeWord_of_toNat {o : Single} {x m : Nat} (hx : x < 256) (hm : m < 2 ^ 10)
    (ho : o.toNat = x * 2 ^ 23 + m * 2 ^ 13) : o = (BitVec.ofNat 32 x <<< 23) ||| (BitVec.ofNat 32 m <<< 13) :=
  BitVec.eq_of_toNat_eq (ho.trans (decodeWord_toNat x m hx hm).symm)

/-- Settles O29: in each of the three branches the datapath's additions put `eba_dec(e)` in the exponent field. -/
theorem decDatapathAgrees : Obligations.DecDatapathAgrees := by
  intro h
  have hlt := halfExp_lt h
  have hm := halfMant_lt h
  have ho := shiftedMagnitude_toNat h
  simp only [decodeDatapath, decodeHalf, or_sign_eq_withSingleSign, exponentMask_eq_max_iff, exponentMask_eq_zero_iff]
  refine congrArg (withSingleSign (halfSign h)) ?_
  rcases (show halfExp h = 31 ∨ (1 ≤ halfExp h ∧ halfExp h ≤ 30) ∨ halfExp h = 0 by omega) with he | ⟨h1, h2⟩ | he
  · rw [if_pos he, if_pos he, he, ebaDec_nonfinite]
    apply eq_decodeWord_of_toNat (by omega) hm
    rw [BitVec.toNat_add, BitVec.toNat_add, BitVec.toNat_ofNat]
    omega
  · rw [if_neg (by omega), if_neg (by omega), if_neg (by omega), if_pos (by omega), ebaDec_normal h1 h2]
    apply eq_decodeWord_of_toNat (by omega) hm
    rw [BitVec.toNat_add, BitVec.toNat_ofNat]
    omega
  · rw [if_neg (by omega), if_pos he, if_neg (by omega), if_neg (by omega), he, show ebaDec 0 = 113 from rfl]
    refine congrArg subMagic ?_
    apply eq_decodeWord_of_toNat (by omega) hm
    rw [BitVec.toNat_add, BitVec.toNat_add, BitVec.toNat_ofNat, BitVec.toNat_ofNat]
    omega

/-! ### Reading the operand back (R70) -/

/-- The exponent field of the half that `DEC` answers with exponent field `E`. -/
def readBackExp (E : Nat) : Nat := if E ≤ 112 then 0 else if E = 255 then 31 else E - 112

/-- The mantissa of the half that `DEC` answers with the fields `E` and `M`: of a subnormal, the significand shifted
back down to units of 2^-24. -/
def readBackMant (E M : Nat) : Nat := if E ≤ 112 then (2 ^ 23 + M) / 2 ^ (126 - E) else M / 2 ^ 13

/-- The half read back from a single: "`s`, `e` and `m` can each be read back from the result" (R70). -/
def readBack (f : Single) : Half :=
  halfOfFields (singleSign f) (readBackExp (singleExp f)) (readBackMant (singleExp f) (singleMant f))

/-- A half is read back from any single whose fields read back as its own. -/
theorem HasFields.readBack_eq {f : Single} {h : Half} {E M : Nat} (hf : HasFields f (halfSign h) E M)
    (he : readBackExp E = halfExp h) (hm : readBackMant E M = halfMant h) : readBack f = h := by
  rw [readBack, hf.sign, hf.exp, hf.mant, he, hm, halfOfFields_self]

/-- Reading back undoes `DEC`. -/
theorem readBack_decodeHalf : Function.LeftInverse readBack decodeHalf := by
  intro h
  rcases half_cases h with he | ⟨h1, h2⟩ | ⟨he, hm⟩ | ⟨he, hm⟩
  · apply (decodeHalf_nonfinite he).readBack_eq
    · rw [he]
      rfl
    · rw [readBackMant, if_neg (by omega), Nat.mul_div_cancel _ (by omega)]
  · apply (decodeHalf_normal h1 h2).readBack_eq
    · rw [readBackExp, if_neg (by omega), if_neg (by omega), Nat.add_sub_cancel]
    · rw [readBackMant, if_neg (by omega), Nat.mul_div_cancel _ (by omega)]
  · apply (decodeHalf_zero he hm).readBack_eq
    · rw [he]
      rfl
    · rw [hm]
      rfl
  · have hk := log2_le_nine hm (halfMant_lt h)
    apply (decodeHalf_subnormal he hm).readBack_eq
    · rw [readBackExp, if_pos (by omega), he]
    · rw [readBackMant, if_pos (by omega), (log2_renormalised hm (halfMant_lt h)).1,
        show 126 - (103 + Nat.log2 (halfMant h)) = 23 - Nat.log2 (halfMant h) by omega,
        Nat.mul_div_cancel _ (Nat.two_pow_pos _)]

/-- Settles O30: the operand is read back from the result. -/
theorem decIsInjective : Obligations.DecIsInjective := fun _ _ heq => readBack_decodeHalf.injective heq

/-! ### The set of results (R70) -/

/-- A signed zero is the result of a zero. -/
theorem exists_decodeHalf_zero {f : Single} (hE : singleExp f = 0) (hM : singleMant f = 0) :
    ∃ h, decodeHalf h = f := by
  obtain ⟨hs, he, hm⟩ := halfOfFields_fields (singleSign f) (e := 0) (m := 0) (by omega) (by omega)
  have hd := decodeHalf_zero he hm
  rw [hs] at hd
  exact ⟨_, hd.unique ⟨rfl, hE, hM⟩⟩

/-- An exponent field 113 to 142 with 13 low zeros is the result of a normal. -/
theorem exists_decodeHalf_normal {f : Single} (h1 : 113 ≤ singleExp f) (h2 : singleExp f ≤ 142)
    (hlow : 2 ^ 13 ∣ singleMant f) : ∃ h, decodeHalf h = f := by
  obtain ⟨m, hM⟩ := hlow
  have hMlt := singleMant_lt f
  obtain ⟨hs, he, hm⟩ :=
    halfOfFields_fields (singleSign f) (e := singleExp f - 112) (m := m) (by omega) (by omega)
  have hd := decodeHalf_normal (by rw [he]; omega) (by rw [he]; omega)
  rw [hs, he, hm] at hd
  exact ⟨_, hd.unique ⟨rfl, by omega, by omega⟩⟩

/-- Exponent field 255 with 13 low zeros is the result of an infinity or a NaN. -/
theorem exists_decodeHalf_nonfinite {f : Single} (hE : singleExp f = 255) (hlow : 2 ^ 13 ∣ singleMant f) :
    ∃ h, decodeHalf h = f := by
  obtain ⟨m, hM⟩ := hlow
  have hMlt := singleMant_lt f
  obtain ⟨hs, he, hm⟩ := halfOfFields_fields (singleSign f) (e := 31) (m := m) (by omega) (by omega)
  have hd := decodeHalf_nonfinite he
  rw [hs, hm] at hd
  exact ⟨_, hd.unique ⟨rfl, hE, by omega⟩⟩

/-- Exponent field `103 + k` with `23 - k` low zeros is the result of the subnormal that its significand, without
those zeros, is the mantissa of. -/
theorem exists_decodeHalf_subnormal {f : Single} {k : Nat} (hk : k ≤ 9) (hE : singleExp f = 103 + k)
    (hlow : 2 ^ (23 - k) ∣ singleMant f) : ∃ h, decodeHalf h = f := by
  have hMlt := singleMant_lt f
  have hp : 2 ^ k * 2 ^ (23 - k) = 2 ^ 23 := by rw [← pow_add, Nat.add_sub_cancel' (by omega)]
  have hpos : 0 < 2 ^ k := Nat.two_pow_pos k
  obtain ⟨j, hM⟩ := hlow
  rw [Nat.mul_comm] at hM
  have hj : j < 2 ^ k := by
    apply Nat.lt_of_mul_lt_mul_right (a := 2 ^ (23 - k))
    omega
  have hk9 : 2 ^ k ≤ 2 ^ 9 := Nat.pow_le_pow_right (by omega) hk
  have hlog : Nat.log2 (2 ^ k + j) = k := (Nat.log2_eq_iff (by omega)).mpr ⟨by omega, by rw [pow_succ]; omega⟩
  obtain ⟨hs, he, hm⟩ := halfOfFields_fields (singleSign f) (e := 0) (m := 2 ^ k + j) (by omega) (by omega)
  have hd := decodeHalf_subnormal he (by omega)
  rw [hs, hm, hlog, Nat.add_sub_cancel_left] at hd
  exact ⟨_, hd.unique ⟨rfl, hE, hM⟩⟩

/-- The low zeros of a pattern are those of its mantissa field. -/
theorem dvd_toNat_iff_dvd_mant (f : Single) {n : Nat} (hn : n ≤ 23) : 2 ^ n ∣ f.toNat ↔ 2 ^ n ∣ singleMant f := by
  have hdvd : 2 ^ n ∣ 2 ^ 23 := Nat.pow_dvd_pow 2 hn
  rw [singleMant_eq]
  exact (Nat.dvd_mod_iff hdvd).symm

/-- The exponent fields that `DEC` answers, with the low zeros of a renormalised mantissa. -/
theorem decodeHalf_image (h : Half) :
    (decodeHalf h).toNat % 2 ^ 31 = 0 ∨
      (113 ≤ singleExp (decodeHalf h) ∧ singleExp (decodeHalf h) ≤ 142) ∨
      (103 ≤ singleExp (decodeHalf h) ∧ singleExp (decodeHalf h) ≤ 112 ∧
        (decodeHalf h).toNat % 2 ^ (13 + (113 - singleExp (decodeHalf h))) = 0) ∨
      singleExp (decodeHalf h) = 255 := by
  rcases half_cases h with he | ⟨h1, h2⟩ | ⟨he, hm⟩ | ⟨he, hm⟩
  · exact .inr (.inr (.inr (decodeHalf_nonfinite he).exp))
  · rw [(decodeHalf_normal h1 h2).exp]
    omega
  · rw [(decodeHalf_zero he hm).toNat_eq]
    omega
  · have hk := log2_le_nine hm (halfMant_lt h)
    have hd := decodeHalf_subnormal he hm
    refine .inr (.inr (.inl ?_))
    rw [hd.exp, show 13 + (113 - (103 + Nat.log2 (halfMant h))) = 23 - Nat.log2 (halfMant h) by omega]
    refine ⟨by omega, by omega, Nat.mod_eq_zero_of_dvd ?_⟩
    rw [dvd_toNat_iff_dvd_mant _ (by omega), hd.mant]
    exact Nat.dvd_mul_left _ _

/-- Settles O31: each kind of operand answers one of the listed shapes, and each shape is answered by one kind. -/
theorem decImage : Obligations.DecImage := by
  intro f
  constructor
  · rintro ⟨h, rfl⟩
    exact ⟨Nat.mod_eq_zero_of_dvd (decodeHalf_dvd h), decodeHalf_image h⟩
  · rintro ⟨hlow, hshape⟩
    have hmant := (dvd_toNat_iff_dvd_mant f (by omega)).mp (Nat.dvd_of_mod_eq_zero hlow)
    rcases hshape with h0 | ⟨h1, h2⟩ | ⟨h1, h2, hzeros⟩ | h255
    · apply exists_decodeHalf_zero
      · rw [singleExp_eq]
        omega
      · rw [singleMant_eq]
        omega
    · exact exists_decodeHalf_normal h1 h2 hmant
    · obtain ⟨k, hk⟩ := Nat.exists_eq_add_of_le h1
      rw [hk, show 13 + (113 - (103 + k)) = 23 - k by omega] at hzeros
      exact exists_decodeHalf_subnormal (by omega) hk
        ((dvd_toNat_iff_dvd_mant f (by omega)).mp (Nat.dvd_of_mod_eq_zero hzeros))
    · exact exists_decodeHalf_nonfinite h255 hmant

end Sys2Proof.Machine
end

section
/-! PROOFS. The reference encoders: the magnitude word by the exponent field, its bounds, and the results of the three
encoders as numbers (R73 to R78). -/

namespace Sys2Proof.Machine

/-! ### The magnitude word by the exponent field (R73, R80) -/

theorem refWord_isMax (mode : RoundMode) (M : Nat) : refWord mode 255 M = nonfiniteWord M := rfl

theorem refWord_overflow (mode : RoundMode) {E : Nat} (h : 143 ≤ E) (h' : E < 255) (M : Nat) :
    refWord mode E M = 0x7C00#16 := by
  rw [refWord, expClass_overflow h h']

theorem refWord_normal (mode : RoundMode) {E : Nat} (h : 113 ≤ E) (h' : E ≤ 142) (M : Nat) :
    refWord mode E M = normalWord mode E M := by
  rw [refWord, expClass_normal h h']

theorem refWord_subnormal (mode : RoundMode) {E : Nat} (h : 102 ≤ E) (h' : E ≤ 112) (M : Nat) :
    refWord mode E M = subnormalWord mode E M := by
  rw [refWord, expClass_subnormal h h']

theorem refWord_tooSmall (mode : RoundMode) {E : Nat} (h : E ≤ 101) (M : Nat) : refWord mode E M = 0#16 := by
  rw [refWord, expClass_tooSmall h]

/-- R73's cases (b) to (f) as comparisons of the exponent field. -/
theorem refWord_eq_ite (mode : RoundMode) {E : Nat} (hE : E < 256) (M : Nat) :
    refWord mode E M =
      if E = 255 then nonfiniteWord M
      else if 143 ≤ E then 0x7C00#16
      else if 113 ≤ E then normalWord mode E M
      else if 102 ≤ E then subnormalWord mode E M
      else 0#16 := by
  split_ifs with hmax hover hnormal hsub
  · rw [hmax, refWord_isMax]
  · exact refWord_overflow mode hover (by omega) M
  · exact refWord_normal mode hnormal (by omega) M
  · exact refWord_subnormal mode hsub (by omega) M
  · exact refWord_tooSmall mode (by omega) M

/-! ### Bounds on the word (R77) -/

theorem subnormalKept_le {E M : Nat} (hE : E ≤ 112) (hM : M < 2 ^ 23) : (subnormalKept E M).toNat ≤ 0x03FF := by
  have hq := subnormal_q_lt (n := 126 - E) hM (by omega)
  rw [subnormalKept_toNat hE hM]
  omega

theorem normalKept_le {E M : Nat} (h : 113 ≤ E) (h' : E ≤ 142) (hM : M < 2 ^ 23) :
    (normalKept E M).toNat ≤ 0x7BFF := by
  rw [normalKept_toNat h h' hM]
  omega

theorem subnormalWord_le (mode : RoundMode) {E M : Nat} (hE : E ≤ 112) (hM : M < 2 ^ 23) :
    (subnormalWord mode E M).toNat ≤ 0x0400 := by
  have hkept := subnormalKept_le hE hM
  exact (roundKept_le mode _ _ _ (by omega)).trans (Nat.succ_le_succ hkept)

theorem normalWord_le (mode : RoundMode) {E M : Nat} (h : 113 ≤ E) (h' : E ≤ 142) (hM : M < 2 ^ 23) :
    (normalWord mode E M).toNat ≤ 0x7C00 := by
  have hkept := normalKept_le h h' hM
  exact (roundKept_le mode _ _ _ (by omega)).trans (Nat.succ_le_succ hkept)

/-- Below exponent field 255 the word is at most that of infinity. -/
theorem refWord_le_infinity (mode : RoundMode) {E M : Nat} (hE : E < 255) (hM : M < 2 ^ 23) :
    (refWord mode E M).toNat ≤ 0x7C00 := by
  rw [refWord_eq_ite mode (by omega), if_neg (by omega)]
  split_ifs with hover hnormal hsub
  · decide
  · exact normalWord_le mode hnormal (by omega) hM
  · exact (subnormalWord_le mode (by omega) hM).trans (by decide)
  · decide

/-- On a word whose increment stays below bit 15 the sign may be merged before or after it: the sign is added above
the word and leaves its parity alone. -/
theorem withHalfSign_roundKept (mode : RoundMode) {w : Half} (hw : w.toNat ≤ 0x7BFF) (S guard sticky : Bool) :
    withHalfSign S (roundKept mode w guard sticky) = roundKept mode (withHalfSign S w) guard sticky := by
  have hround := roundKept_le mode w guard sticky (by omega)
  have hsigned := withHalfSign_toNat S w (by omega)
  have hS := Bool.toNat_le S
  have hparity : (withHalfSign S w).toNat % 2 = w.toNat % 2 := by omega
  apply BitVec.eq_of_toNat_eq
  rw [withHalfSign_toNat _ _ (by omega), roundKept_toNat _ _ _ _ (by omega), roundKept_toNat _ _ _ _ (by omega),
    hparity, hsigned, Nat.add_assoc]

/-- Settles O49: the kept words' bounds leave room for the increment, and the other cases are constants. -/
theorem magnitudeWordNeverReachesSign : Obligations.MagnitudeWordNeverReachesSign := by
  intro mode E M hE hM
  refine ⟨fun ⟨h, h'⟩ => ?_, fun ⟨h, h'⟩ => ?_, fun hother => ?_, refWord_lt mode E M (by omega) hM⟩
  · have hkept := subnormalKept_le h' hM
    rw [refWord_subnormal mode h h']
    exact ⟨hkept, subnormalWord_le mode h' hM, rfl, withHalfSign_roundKept mode (by omega)⟩
  · have hkept := normalKept_le h h' hM
    rw [refWord_normal mode h h']
    exact ⟨hkept, normalWord_le mode h h' hM, rfl, withHalfSign_roundKept mode hkept⟩
  · rcases hother with hsmall | hlarge
    · exact .inl (refWord_tooSmall mode hsmall M)
    · rcases (show E = 255 ∨ E < 255 by omega) with rfl | hover
      · rw [refWord_isMax]
        by_cases hM0 : M = 0
        · exact .inr (.inl (by rw [nonfiniteWord, if_neg (not_not.mpr hM0)]; rfl))
        · exact .inr (.inr (by rw [nonfiniteWord, if_pos hM0]; rfl))
      · exact .inr (.inl (refWord_overflow mode hlarge hover M))

/-! ### The family's result (R73, R78) -/

/-- The early exit changes nothing: exponent field 0 lands in case (e), whose word is 0 too (R76). -/
theorem encRefFamily_eq (f : Single) (mode : RoundMode) (earlyExit : Bool) :
    encRefFamily f mode earlyExit = withHalfSign (singleSign f) (refWord mode (singleExp f) (singleMant f)) := by
  rw [encRefFamily]
  split_ifs with hexit
  · rw [refWord_tooSmall mode (by omega)]
  · rfl

theorem encFast_eq_encRef (f : Single) : encFast f = encRef f := by
  rw [encFast, encRef, encRefFamily_eq, encRefFamily_eq]

/-- The result as a number: the sign of the operand above the magnitude word. -/
theorem encRefFamily_toNat_eq (f : Single) (mode : RoundMode) (earlyExit : Bool) :
    (encRefFamily f mode earlyExit).toNat =
      f.toNat / 2 ^ 31 * 2 ^ 15 + (refWord mode (singleExp f) (singleMant f)).toNat := by
  have hword := refWord_lt mode _ _ (singleExp_lt f) (singleMant_lt f)
  rw [encRefFamily_eq, withHalfSign_toNat _ _ (by omega), singleSign_eq]

theorem exec_encRef (s : State) : exec .encRef s = .next (s.answer (placeHalf (encRef s.din))) := exec_eq _ s

theorem exec_encRtne (s : State) : exec .encRtne s = .next (s.answer (placeHalf (encRtne s.din))) := exec_eq _ s

theorem exec_encFast (s : State) : exec .encFast s = .next (s.answer (placeHalf (encFast s.din))) := exec_eq _ s

/-- Settles O34: without the early exit the family has the same function. -/
theorem encFastEqualsRef : Obligations.EncFastEqualsRef := by
  intro s
  refine ⟨_, exec_encFast s, ?_⟩
  rw [exec_encRef, encFast_eq_encRef]

/-- The family's answer from the number of its magnitude word, as the next state that differs in `dout` alone. -/
theorem answer_encRefFamily (s : State) (mode : RoundMode) (earlyExit : Bool) {n : Nat}
    (hword : (refWord mode (s.din.toNat / 2 ^ 23 % 2 ^ 8) (s.din.toNat % 2 ^ 23)).toNat = n) :
    s.answer (placeHalf (encRefFamily s.din mode earlyExit)) =
      { s with dout := BitVec.ofNat 32 (s.din.toNat / 2 ^ 31 * 2 ^ 15 + n) } := by
  rw [← hword, ← singleExp_eq, ← singleMant_eq, ← encRefFamily_toNat_eq s.din mode earlyExit, ← placeHalf_toNat,
    BitVec.ofNat_toNat, BitVec.setWidth_eq, State.answer]

/-! ### The answers case by case (R73 to R75) -/

theorem refWord_halfUp_toNat {E M : Nat} (hE : E < 256) (hM : M < 2 ^ 23) :
    (refWord .halfUp E M).toNat =
      if E = 255 then (if M = 0 then 0x7C00 else 0x7E00)
      else if 143 ≤ E then 0x7C00
      else if 113 ≤ E then (E - 112) * 2 ^ 10 + M / 2 ^ 13 + M / 2 ^ 12 % 2
      else if 102 ≤ E then (2 ^ 23 + M) / 2 ^ (126 - E) + (2 ^ 23 + M) / 2 ^ (125 - E) % 2
      else 0 := by
  rw [refWord_eq_ite _ hE]
  split_ifs with hmax hM0 hover hnormal hsub
  · rw [nonfiniteWord_toNat, if_pos hM0]
  · rw [nonfiniteWord_toNat, if_neg hM0]
  · rfl
  · exact normalWord_halfUp hnormal (by omega) hM
  · exact subnormalWord_halfUp (by omega) hM
  · rfl

/-- Settles O32: the magnitude word's five cases, under the operand's sign. -/
theorem encRefAnswer : Obligations.EncRefAnswer := by
  intro s S E M
  rw [exec_encRef]
  exact congrArg _ (answer_encRefFamily s .halfUp true (refWord_halfUp_toNat (by omega) (by omega)))

theorem refWord_rne_toNat {E M : Nat} (hE : E < 256) (hM : M < 2 ^ 23) :
    (refWord .rne E M).toNat =
      if E = 255 then (if M = 0 then 0x7C00 else 0x7E00)
      else if 143 ≤ E then 0x7C00
      else if 113 ≤ E then
        (E - 112) * 2 ^ 10 + M / 2 ^ 13 +
          (if 2 ^ 12 < M % 2 ^ 13 ∨ (M % 2 ^ 13 = 2 ^ 12 ∧ M / 2 ^ 13 % 2 = 1) then 1 else 0)
      else if 102 ≤ E then
        (2 ^ 23 + M) / 2 ^ (126 - E) +
          (if 2 ^ (125 - E) < (2 ^ 23 + M) % 2 ^ (126 - E) ∨
              ((2 ^ 23 + M) % 2 ^ (126 - E) = 2 ^ (125 - E) ∧ (2 ^ 23 + M) / 2 ^ (126 - E) % 2 = 1)
            then 1 else 0)
      else 0 := by
  rw [refWord_eq_ite _ hE]
  by_cases hmax : E = 255
  · rw [if_pos hmax, if_pos hmax, nonfiniteWord_toNat]
  rw [if_neg hmax, if_neg hmax]
  by_cases hover : 143 ≤ E
  · rw [if_pos hover, if_pos hover]
    rfl
  rw [if_neg hover, if_neg hover]
  by_cases hnormal : 113 ≤ E
  · rw [if_pos hnormal, if_pos hnormal, normalWord_rne hnormal (by omega) hM, rneShr_eq M 13 (by omega),
      Nat.add_assoc]
  rw [if_neg hnormal, if_neg hnormal]
  by_cases hsub : 102 ≤ E
  · rw [if_pos hsub, if_pos hsub, subnormalWord_rne (by omega) hM, rneShr_eq _ (126 - E) (by omega),
      show 126 - E - 1 = 125 - E by omega]
  · rw [if_neg hsub, if_neg hsub]
    rfl

/-- Settles O33: as `ENC.REF`, with `rne_shr` written out on the remainder in the two rounding cases. -/
theorem encRtneAnswer : Obligations.EncRtneAnswer := by
  intro s S E M
  rw [exec_encRtne]
  exact congrArg _ (answer_encRefFamily s .rne true (refWord_rne_toNat (by omega) (by omega)))

/-! ### The two rounding modes compared (R75) -/

/-- Rounding up from halfway is `rne_shr`, and one more on a tie whose quotient is even. -/
theorem halfUp_eq_rneShr (x : Nat) {n : Nat} (hn : 1 ≤ n) :
    x / 2 ^ n + x / 2 ^ (n - 1) % 2 =
      rneShr x n + if x % 2 ^ n = 2 ^ (n - 1) ∧ x / 2 ^ n % 2 = 0 then 1 else 0 := by
  obtain ⟨k, rfl⟩ := Nat.exists_eq_add_of_le' hn
  have hlow : x % 2 ^ k < 2 ^ k := Nat.mod_lt _ (Nat.two_pow_pos k)
  have hmod : x % 2 ^ (k + 1) = x % 2 ^ k + 2 ^ k * (x / 2 ^ k % 2) := by rw [pow_succ, Nat.mod_mul]
  rw [rneShr_eq x _ hn, Nat.add_sub_cancel, hmod]
  rcases Nat.mod_two_eq_zero_or_one (x / 2 ^ k) with hguard | hguard <;> rw [hguard] <;> split_ifs <;> omega

/-- The operands on which the two modes differ: the discarded bits are halfway and the kept word is even. -/
abbrev EvenTie (E M : Nat) : Prop :=
  (113 ≤ E ∧ E ≤ 142 ∧ M % 2 ^ 13 = 2 ^ 12 ∧ M / 2 ^ 13 % 2 = 0) ∨
    (102 ≤ E ∧ E ≤ 112 ∧ (2 ^ 23 + M) % 2 ^ (126 - E) = 2 ^ (125 - E) ∧ (2 ^ 23 + M) / 2 ^ (126 - E) % 2 = 0)

theorem refWord_halfUp_eq_rne {E M : Nat} (hE : E < 256) (hM : M < 2 ^ 23) :
    (refWord .halfUp E M).toNat = (refWord .rne E M).toNat + if EvenTie E M then 1 else 0 := by
  rcases (show E = 255 ∨ (143 ≤ E ∧ E < 255) ∨ (113 ≤ E ∧ E ≤ 142) ∨ (102 ≤ E ∧ E ≤ 112) ∨ E ≤ 101 by omega) with
    rfl | ⟨h, h'⟩ | ⟨h, h'⟩ | ⟨h, h'⟩ | h
  · rw [refWord_isMax, refWord_isMax, if_neg (by omega), Nat.add_zero]
  · rw [refWord_overflow _ h h', refWord_overflow _ h h', if_neg (by omega), Nat.add_zero]
  · have htie : EvenTie E M ↔ M % 2 ^ 13 = 2 ^ 12 ∧ M / 2 ^ 13 % 2 = 0 := by omega
    rw [refWord_normal _ h h', refWord_normal _ h h', normalWord_halfUp h h' hM, normalWord_rne h h' hM,
      Nat.add_assoc, halfUp_eq_rneShr M (n := 13) (by omega), Nat.add_assoc]
    simp only [htie]
  · have htie : EvenTie E M ↔ (2 ^ 23 + M) % 2 ^ (126 - E) = 2 ^ (125 - E) ∧ (2 ^ 23 + M) / 2 ^ (126 - E) % 2 = 0 := by
      omega
    have hround := halfUp_eq_rneShr (2 ^ 23 + M) (n := 126 - E) (by omega)
    rw [show 126 - E - 1 = 125 - E by omega] at hround
    rw [refWord_subnormal _ h h', refWord_subnormal _ h h', subnormalWord_halfUp h' hM, subnormalWord_rne h' hM, hround]
    simp only [htie]
  · rw [refWord_tooSmall _ h, refWord_tooSmall _ h, if_neg (by omega), Nat.add_zero]

/-- Settles O35: the signs agree, and the magnitude words differ by one on the even ties. -/
theorem rtneDiffersOnEvenTies : Obligations.RtneDiffersOnEvenTies := by
  intro s
  refine ⟨_, _, exec_encRef s, exec_encRtne s, ?_⟩
  intro E M tie
  have hdiff : (encRef s.din).toNat = (encRtne s.din).toNat + if EvenTie E M then 1 else 0 := by
    rw [encRef, encRtne, encRefFamily_toNat_eq, encRefFamily_toNat_eq,
      refWord_halfUp_eq_rne (singleExp_lt s.din) (singleMant_lt s.din), singleExp_eq, singleMant_eq, Nat.add_assoc]
  constructor
  · intro htie
    rw [if_pos htie] at hdiff
    simpa using hdiff
  · intro htie
    rw [if_neg htie] at hdiff
    exact congrArg placeHalf (BitVec.eq_of_toNat_eq hdiff)

end Sys2Proof.Machine
end

section
/-! PROOFS. The reference encoders against values: a result passes a word exactly when the operand passes the midpoint
above that word, and so it is nearest, has its thresholds there, and gives a widened half back (R79, R81). -/

namespace Sys2Proof.Machine

/-! ### Words as numbers (R79) -/

/-- The number `g(w)` of R79, in units of 2^-149. -/
def wordUnits (w : Nat) : Nat := halfUnits (w / 2 ^ 10) (w % 2 ^ 10)

/-- The words `j * 2^10 + y` of the binade `j`, its upper end included, are equally spaced; in the lowest binade the
subnormals join the least normals. -/
theorem wordUnits_binade {j y : Nat} (hlo : j = 0 ∨ 2 ^ 10 ≤ y) (hy : y ≤ 2 ^ 11) :
    wordUnits (j * 2 ^ 10 + y) = y * 2 ^ (125 + j) := by
  unfold wordUnits halfUnits
  rcases (show y < 2 ^ 10 ∨ (2 ^ 10 ≤ y ∧ y < 2 ^ 11) ∨ y = 2 ^ 11 by omega) with h | ⟨h, h'⟩ | rfl
  · obtain rfl : j = 0 := by omega
    rw [if_pos (by omega), show (0 * 2 ^ 10 + y) % 2 ^ 10 = y by omega]
  · rw [if_neg (by omega), show (j * 2 ^ 10 + y) / 2 ^ 10 + 124 = 125 + j by omega,
      show 2 ^ 10 + (j * 2 ^ 10 + y) % 2 ^ 10 = y by omega]
  · rw [if_neg (by omega), show (j * 2 ^ 10 + 2 ^ 11) / 2 ^ 10 + 124 = 125 + j + 1 by omega,
      show 2 ^ 10 + (j * 2 ^ 10 + 2 ^ 11) % 2 ^ 10 = 2 ^ 10 by omega, pow_succ 2 (125 + j)]
    omega

/-- "`g` is strictly increasing in `w`" (R79): from a word to the next is one step of its binade. -/
theorem wordUnits_strictMono : StrictMono wordUnits := by
  refine strictMono_nat_of_lt_succ fun w => ?_
  obtain ⟨j, y, hw, hlo, hy⟩ : ∃ j y, w = j * 2 ^ 10 + y ∧ (j = 0 ∨ 2 ^ 10 ≤ y) ∧ y < 2 ^ 11 :=
    ⟨w / 2 ^ 10 - 1, w - (w / 2 ^ 10 - 1) * 2 ^ 10, by omega, by omega, by omega⟩
  rw [hw, Nat.add_assoc, wordUnits_binade hlo hy.le, wordUnits_binade (hlo.imp_right Nat.le_succ_of_le) hy]
  exact Nat.mul_lt_mul_of_pos_right (Nat.lt_succ_self y) (Nat.two_pow_pos _)

theorem wordUnits_lt_succ (w : Nat) : wordUnits w < wordUnits (w + 1) := wordUnits_strictMono (Nat.lt_succ_self w)

theorem wordUnits_infinity : wordUnits 0x7C00 = 2 ^ 165 := by decide

/-! ### When a magnitude passes a word -/

/-- Twice the midpoint between the word `p` and the next. -/
def twiceMidpoint (p : Nat) : Nat := wordUnits p + wordUnits (p + 1)

/-- The magnitude `v` is rounded to a word above `p`. -/
def RoundsPast : RoundMode → Nat → Nat → Prop
  | .halfUp, p, v => twiceMidpoint p ≤ 2 * v
  | .rne, p, v => twiceMidpoint p < 2 * v ∨ (twiceMidpoint p = 2 * v ∧ p % 2 = 1)
  | .trunc, p, v => wordUnits (p + 1) ≤ v

/-- A magnitude that reaches the next word passes `p` in every mode. -/
theorem roundsPast_of_le (mode : RoundMode) {p v : Nat} (h : wordUnits (p + 1) ≤ v) : RoundsPast mode p v := by
  have hlt := wordUnits_lt_succ p
  cases mode <;> simp only [RoundsPast, twiceMidpoint] <;> omega

/-- A magnitude up to `p` passes it in no mode. -/
theorem not_roundsPast_of_le (mode : RoundMode) {p v : Nat} (h : v ≤ wordUnits p) : ¬RoundsPast mode p v := by
  have hlt := wordUnits_lt_succ p
  cases mode <;> simp only [RoundsPast, twiceMidpoint] <;> omega

/-- A magnitude between the word `q` and the next, rounded to one of the two, is rounded past the words below the
result and no other. -/
theorem succ_le_iff_roundsPast {mode : RoundMode} {q v : Nat} {inc : Bool} (hlo : wordUnits q ≤ v)
    (hhi : v < wordUnits (q + 1)) (hinc : inc = true ↔ RoundsPast mode q v) (p : Nat) :
    p + 1 ≤ q + inc.toNat ↔ RoundsPast mode p v := by
  have hle := Bool.toNat_le inc
  rcases Nat.lt_trichotomy p q with hp | rfl | hp
  · have hmono := wordUnits_strictMono.monotone (show p + 1 ≤ q from hp)
    exact iff_of_true (by omega) (roundsPast_of_le mode (hmono.trans hlo))
  · rw [← hinc]
    cases inc <;> simp
  · have hmono := wordUnits_strictMono.monotone (show q + 1 ≤ p from hp)
    exact iff_of_false (by omega) (not_roundsPast_of_le mode (hhi.le.trans hmono))

/-- The rounder's increment on the discarded bits of `v` decides whether `v` passes the word `q` that its quotient by
the step `2^k` stands for. -/
theorem roundInc_iff_roundsPast (mode : RoundMode) {q v k : Nat} (hk : 1 ≤ k)
    (hlo : wordUnits q = v / 2 ^ k * 2 ^ k) (hhi : wordUnits (q + 1) = (v / 2 ^ k + 1) * 2 ^ k)
    {lsb : Bool} (hlsb : lsb = true ↔ q % 2 = 1) :
    roundInc mode lsb (split v k).guard (split v k).sticky = true ↔ RoundsPast mode q v := by
  obtain ⟨-, -, -, -, habove, -, hbelow⟩ := splitSummarisesDiscardedBits v k hk
  have hstep : 2 ^ k = 2 * 2 ^ (k - 1) := by rw [← pow_succ', Nat.sub_add_cancel hk]
  have hv := Nat.div_add_mod' v (2 ^ k)
  have hr : v % 2 ^ k < 2 ^ k := Nat.mod_lt _ (Nat.two_pow_pos k)
  have hmid : twiceMidpoint q + 2 * (v % 2 ^ k) = 2 * v + 2 ^ k := by
    rw [twiceMidpoint, hlo, hhi, Nat.succ_mul]
    omega
  have hguard : (split v k).guard = true ↔ 2 ^ (k - 1) ≤ v % 2 ^ k := by
    rw [← Bool.not_eq_false, ← hbelow, Nat.not_lt]
  cases mode with
  | halfUp =>
    rw [roundInc, hguard, RoundsPast]
    omega
  | rne =>
    rw [roundInc, Bool.and_eq_true, Bool.or_eq_true, and_or_left, ← habove, hguard, hlsb, RoundsPast]
    omega
  | trunc =>
    rw [roundInc, RoundsPast, hhi, Nat.succ_mul, Bool.false_eq_true, false_iff]
    omega

/-! ### The magnitude word rounds the magnitude (R73) -/

/-- The step between neighbouring words near a single with exponent field `E` is `2^(stepLog E)` units. -/
def stepLog (E : Nat) : Nat := 125 + (E - 113)

/-- The greatest word whose number is at most the magnitude. -/
def wordBelow (E M : Nat) : Nat := (E - 113) * 2 ^ 10 + singleUnits E M / 2 ^ stepLog E

/-- Two splits with the same three parts are equal. -/
theorem Split.eq_of_parts {a b : Split} (hq : a.q = b.q) (hg : a.guard = b.guard) (hs : a.sticky = b.sticky) :
    a = b := by
  obtain ⟨_, _, _⟩ := a
  exact Split.mk.injEq .. ▸ ⟨hq, hg, hs⟩

/-- Low zeros change no part of a split. -/
theorem split_mul_two_pow (x j : Nat) {n : Nat} (hn : 1 ≤ n) : split (x * 2 ^ j) (n + j) = split x n := by
  have hpos : 0 < 2 ^ j := Nat.two_pow_pos j
  have hn1 : n + j - 1 = n - 1 + j := by omega
  apply Split.eq_of_parts
  · rw [split_q, split_q, pow_add, Nat.mul_div_mul_right _ _ hpos]
  · rw [split_guard, split_guard, hn1, pow_add, Nat.mul_div_mul_right _ _ hpos]
  · rw [split_sticky, split_sticky, hn1, pow_add, Nat.mul_mod_mul_right]
    simp

/-- Bits above the discarded ones do not change the guard and sticky bits. -/
theorem split_hidden (M : Nat) :
    (split (2 ^ 23 + M) 13).guard = (split M 13).guard ∧ (split (2 ^ 23 + M) 13).sticky = (split M 13).sticky := by
  rw [split_guard, split_guard, split_sticky, split_sticky, decide_eq_decide, decide_eq_decide]
  omega

/-- The magnitude word is the word below the magnitude, incremented as the rounder says of the discarded bits of the
magnitude itself. -/
theorem refWord_toNat_eq (mode : RoundMode) {E M : Nat} (hE : E ≤ 142) (hM : M < 2 ^ 23) :
    (refWord mode E M).toNat = wordBelow E M +
      (roundInc mode (decide (wordBelow E M % 2 = 1)) (split (singleUnits E M) (stepLog E)).guard
        (split (singleUnits E M) (stepLog E)).sticky).toNat := by
  rcases (show 113 ≤ E ∨ (102 ≤ E ∧ E ≤ 112) ∨ E ≤ 101 by omega) with h | ⟨h, h'⟩ | h
  · obtain ⟨hguard, hsticky⟩ := split_hidden M
    have hkept := normalKept_toNat h hE hM
    have hsplit : split (singleUnits E M) (stepLog E) = split (2 ^ 23 + M) 13 := by
      rw [singleUnits_of_pos (by omega), show stepLog E = 13 + (E - 1) by unfold stepLog; omega]
      exact split_mul_two_pow _ _ (by omega)
    have hbelow : wordBelow E M = (normalKept E M).toNat := by
      rw [wordBelow, ← split_q, hsplit, split_q, hkept]
      omega
    rw [refWord_normal mode h hE, normalWord, roundKept_toNat _ _ _ _ (by omega), hbelow, hsplit, hguard, hsticky]
  · have hkept := subnormalKept_le h' hM
    have hsplit : split (singleUnits E M) (stepLog E) = subnormalSplit E M := by
      rw [singleUnits_of_pos (by omega), show stepLog E = 126 - E + (E - 1) by unfold stepLog; omega,
        subnormalSplit_eq (by omega) hM]
      exact split_mul_two_pow _ _ (by omega)
    have hbelow : wordBelow E M = (subnormalKept E M).toNat := by
      rw [wordBelow, ← split_q, hsplit, subnormalSplit_eq (by omega) hM, split_q, subnormalKept_toNat h' hM]
      omega
    rw [refWord_subnormal mode h h', subnormalWord, roundKept_toNat _ _ _ _ (by omega), hbelow, hsplit]
  · have hsmall : singleUnits E M < 2 ^ 124 := by
      have := le_singleUnits_iff (E := E) hM 101
      omega
    have hstep : stepLog E = 125 := by
      unfold stepLog
      omega
    have hbelow : wordBelow E M = 0 := by
      rw [wordBelow, hstep]
      omega
    have hguard : (split (singleUnits E M) 125).guard = false := by
      rw [split_guard, decide_eq_false_iff_not]
      omega
    rw [refWord_tooSmall mode h, hbelow, hstep, hguard]
    cases mode <;> rfl

/-- The word below the magnitude and the next one stand for the two multiples of the step around it. -/
theorem wordUnits_wordBelow {E M : Nat} (hE : E ≤ 142) (hM : M < 2 ^ 23) :
    wordUnits (wordBelow E M) = singleUnits E M / 2 ^ stepLog E * 2 ^ stepLog E ∧
      wordUnits (wordBelow E M + 1) = (singleUnits E M / 2 ^ stepLog E + 1) * 2 ^ stepLog E := by
  have hpos : 0 < 2 ^ stepLog E := Nat.two_pow_pos _
  have hhi : singleUnits E M / 2 ^ stepLog E < 2 ^ 11 := by
    rw [Nat.div_lt_iff_lt_mul hpos, ← pow_add]
    have hlt := Nat.not_le.mp (mt (le_singleUnits_iff (E := E) hM (stepLog E - 12)).mp (by unfold stepLog; omega))
    rwa [← pow_add, show 23 + (stepLog E - 12) = 11 + stepLog E by unfold stepLog; omega] at hlt
  have hlo : E - 113 = 0 ∨ 2 ^ 10 ≤ singleUnits E M / 2 ^ stepLog E := by
    rcases Nat.lt_or_ge E 114 with h | h
    · exact .inl (by omega)
    · right
      rw [Nat.le_div_iff_mul_le hpos, ← pow_add]
      have hle := (le_singleUnits_iff (E := E) hM (E - 1)).mpr (by omega)
      rwa [← pow_add, show 23 + (E - 1) = 10 + stepLog E by unfold stepLog; omega] at hle
  rw [wordBelow, Nat.add_assoc, wordUnits_binade hlo hhi.le, wordUnits_binade (hlo.imp_right Nat.le_succ_of_le) hhi]
  exact ⟨rfl, rfl⟩

/-- From 65536 up is exponent field 143 up. -/
theorem le_singleUnits_overflow {E M : Nat} (hM : M < 2 ^ 23) : 2 ^ 165 ≤ singleUnits E M ↔ 143 ≤ E :=
  le_singleUnits_iff hM 142

/-- What every mode computes: the magnitude word is above `p` exactly when the magnitude rounds past `p`. -/
theorem succ_le_refWord_iff (mode : RoundMode) {E M p : Nat} (hE : E < 255) (hM : M < 2 ^ 23) (hp : p < 0x7C00) :
    p + 1 ≤ (refWord mode E M).toNat ↔ RoundsPast mode p (singleUnits E M) := by
  rcases Nat.lt_or_ge 142 E with h | h
  · have hmono := wordUnits_strictMono.monotone (show p + 1 ≤ 0x7C00 from hp)
    have hlarge := (le_singleUnits_overflow (E := E) hM).mpr h
    rw [wordUnits_infinity] at hmono
    rw [refWord_overflow mode h hE]
    exact iff_of_true hp (roundsPast_of_le mode (hmono.trans hlarge))
  · obtain ⟨hlo, hhi⟩ := wordUnits_wordBelow h hM
    have hpos : 0 < 2 ^ stepLog E := Nat.two_pow_pos _
    rw [refWord_toNat_eq mode h hM]
    apply succ_le_iff_roundsPast
    · rw [hlo]
      exact Nat.div_mul_le_self _ _
    · rw [hhi, Nat.mul_comm]
      exact Nat.lt_mul_div_succ _ hpos
    · exact roundInc_iff_roundsPast mode (by unfold stepLog; omega) hlo hhi decide_eq_true_iff

/-! ### Nearest words (R79) -/

/-- In both rounding modes only a magnitude from the midpoint up rounds past a word, and every one above it does. -/
theorem RoundsPast.twiceMidpoint_le {mode : RoundMode} (hmode : mode ≠ .trunc) {p v : Nat}
    (h : RoundsPast mode p v) : twiceMidpoint p ≤ 2 * v := by
  cases mode with
  | halfUp => exact h
  | rne => exact h.elim Nat.le_of_lt fun htie => htie.1.le
  | trunc => exact absurd rfl hmode

theorem le_twiceMidpoint_of_not_roundsPast {mode : RoundMode} (hmode : mode ≠ .trunc) {p v : Nat}
    (h : ¬RoundsPast mode p v) : 2 * v ≤ twiceMidpoint p := by
  cases mode with
  | halfUp => exact (Nat.not_le.mp h).le
  | rne => exact Nat.not_lt.mp fun hlt => h (.inl hlt)
  | trunc => exact absurd rfl hmode

/-- R79's statement on a magnitude `v` and its word `w`: the word of infinity from 65536 up; else a nearest word, and
`tie w w'` when `w'` is another that is as near. -/
def NearestWord (tie : Nat → Nat → Prop) (v w : Nat) : Prop :=
  (2 ^ 165 ≤ v → w = 0x7C00) ∧
  (v < 2 ^ 165 → w ≤ 0x7C00 ∧ ∀ w' ≤ 0x7C00,
    ((wordUnits w : Int) - v).natAbs ≤ ((wordUnits w' : Int) - v).natAbs ∧
    (w' ≠ w → ((wordUnits w' : Int) - v).natAbs = ((wordUnits w : Int) - v).natAbs → tie w w'))

/-- A word that `v` rounds past exactly the words below is nearest to it.  Another word is as near only if it is the
neighbour at whose midpoint `v` lies. -/
theorem nearestWord_of_roundsPast {mode : RoundMode} {tie : Nat → Nat → Prop} {v w : Nat} (hmode : mode ≠ .trunc)
    (htieUp : ∀ p, twiceMidpoint p = 2 * v → RoundsPast mode p v → tie (p + 1) p)
    (htieDown : ∀ p, twiceMidpoint p = 2 * v → ¬RoundsPast mode p v → tie p (p + 1))
    (hover : 2 ^ 165 ≤ v → w = 0x7C00) (hle : w ≤ 0x7C00) (hpast : ∀ p < 0x7C00, p + 1 ≤ w ↔ RoundsPast mode p v) :
    NearestWord tie v w := by
  refine ⟨hover, fun _ => ⟨hle, fun w' hw' => ?_⟩⟩
  rcases Nat.lt_trichotomy w' w with hlt | rfl | hgt
  · obtain ⟨p, rfl⟩ : ∃ p, w = p + 1 := ⟨w - 1, by omega⟩
    have hpastp := (hpast p (by omega)).mp le_rfl
    have hmid := hpastp.twiceMidpoint_le hmode
    have hmono := wordUnits_strictMono.monotone (Nat.le_of_lt_succ hlt)
    have hstrict := wordUnits_strictMono hlt
    rw [twiceMidpoint] at hmid
    refine ⟨by omega, fun _ heq => ?_⟩
    obtain rfl : w' = p := wordUnits_strictMono.injective (by omega)
    exact htieUp w' (by rw [twiceMidpoint]; omega) hpastp
  · exact ⟨le_rfl, fun hne => absurd rfl hne⟩
  · have hnot : ¬RoundsPast mode w v := (hpast w (by omega)).not.mp (by omega)
    have hmid := le_twiceMidpoint_of_not_roundsPast hmode hnot
    have hmono := wordUnits_strictMono.monotone (show w + 1 ≤ w' from hgt)
    have hstrict := wordUnits_strictMono hgt
    rw [twiceMidpoint] at hmid
    refine ⟨by omega, fun _ heq => ?_⟩
    obtain rfl : w' = w + 1 := wordUnits_strictMono.injective (by omega)
    exact htieDown w (by rw [twiceMidpoint]; omega) hnot

/-- The sign and the magnitude word of a result are read back from `dout`. -/
theorem encRefFamily_parts (f : Single) (mode : RoundMode) (earlyExit : Bool) :
    (placeHalf (encRefFamily f mode earlyExit)).toNat / 2 ^ 15 = f.toNat / 2 ^ 31 ∧
      (placeHalf (encRefFamily f mode earlyExit)).toNat % 2 ^ 15 =
        (refWord mode (singleExp f) (singleMant f)).toNat := by
  have hword := refWord_lt mode _ _ (singleExp_lt f) (singleMant_lt f)
  rw [placeHalf_toNat, encRefFamily_toNat_eq]
  omega

theorem singleExp_lt_of_finite {f : Single} (h : singleExp f ≠ 255) : singleExp f < 255 := by
  have := singleExp_lt f
  omega

/-- On a finite operand the magnitude word is nearest, with the ties that the mode's midpoint rule gives. -/
theorem refWord_nearestWord {mode : RoundMode} {tie : Nat → Nat → Prop} {E M : Nat} (hmode : mode ≠ .trunc)
    (htieUp : ∀ p, twiceMidpoint p = 2 * singleUnits E M → RoundsPast mode p (singleUnits E M) → tie (p + 1) p)
    (htieDown : ∀ p, twiceMidpoint p = 2 * singleUnits E M → ¬RoundsPast mode p (singleUnits E M) → tie p (p + 1))
    (hE : E < 255) (hM : M < 2 ^ 23) : NearestWord tie (singleUnits E M) (refWord mode E M).toNat := by
  apply nearestWord_of_roundsPast hmode htieUp htieDown
  · intro hlarge
    rw [refWord_overflow mode ((le_singleUnits_overflow hM).mp hlarge) hE]
    rfl
  · exact refWord_le_infinity mode hE hM
  · exact fun p hp => succ_le_refWord_iff mode hE hM hp

/-- Settles O36: at a midpoint the lower word is passed when it is odd, and then the upper is even. -/
theorem encRtneIsNearestEven : Obligations.EncRtneIsNearestEven := by
  intro s hfinite
  obtain ⟨hsign, hword⟩ := encRefFamily_parts s.din .rne true
  refine ⟨_, exec_encRtne s, hsign, ?_⟩
  change NearestWord (fun w _ => w % 2 = 0) (singleUnits (singleExp s.din) (singleMant s.din))
    ((placeHalf (encRefFamily s.din .rne true)).toNat % 2 ^ 15)
  rw [hword]
  apply refWord_nearestWord (by decide) _ _ (singleExp_lt_of_finite hfinite) (singleMant_lt s.din)
  · intro p hmid hpast
    rw [RoundsPast] at hpast
    omega
  · intro p hmid hnot
    rw [RoundsPast] at hnot
    omega

/-- Settles O37: at a midpoint the lower word is passed. -/
theorem encRefIsNearestAway : Obligations.EncRefIsNearestAway := by
  intro s hfinite
  obtain ⟨hsign, hword⟩ := encRefFamily_parts s.din .halfUp true
  refine ⟨_, exec_encRef s, hsign, ?_⟩
  change NearestWord (fun w w' => w' < w) (singleUnits (singleExp s.din) (singleMant s.din))
    ((placeHalf (encRefFamily s.din .halfUp true)).toNat % 2 ^ 15)
  rw [hword]
  apply refWord_nearestWord (by decide) _ _ (singleExp_lt_of_finite hfinite) (singleMant_lt s.din)
  · exact fun p _ _ => Nat.lt_succ_self p
  · exact fun p hmid hnot => absurd hmid.le hnot

/-! ### Thresholds (R79) -/

theorem twiceMidpoint_infinity : twiceMidpoint 0x7BFF = 2 * (65520 * 2 ^ 149) := by decide

theorem twiceMidpoint_zero : twiceMidpoint 0 = 2 * 2 ^ 124 := by decide

/-- The word is infinity's exactly when the magnitude rounds past the greatest finite word. -/
theorem refWord_eq_infinity_iff (mode : RoundMode) {E M : Nat} (hE : E < 255) (hM : M < 2 ^ 23) :
    (refWord mode E M).toNat = 0x7C00 ↔ RoundsPast mode 0x7BFF (singleUnits E M) := by
  have hle := refWord_le_infinity mode hE hM
  rw [← succ_le_refWord_iff mode hE hM (by decide)]
  omega

/-- The word is 0 exactly when the magnitude does not round past 0. -/
theorem refWord_eq_zero_iff (mode : RoundMode) {E M : Nat} (hE : E < 255) (hM : M < 2 ^ 23) :
    (refWord mode E M).toNat = 0 ↔ ¬RoundsPast mode 0 (singleUnits E M) := by
  rw [← succ_le_refWord_iff mode hE hM (by decide)]
  omega

/-- Settles O38: 65520 is the midpoint above the greatest finite word, which is odd, and 2^-25 that above 0. -/
theorem infinityAndZeroThresholds : Obligations.InfinityAndZeroThresholds := by
  intro s hfinite
  have hE := singleExp_lt_of_finite hfinite
  have hM := singleMant_lt s.din
  refine ⟨_, _, exec_encRef s, exec_encRtne s, ?_⟩
  simp only [State.answer_dout, encRef, encRtne, encRefFamily_parts, refWord_eq_infinity_iff _ hE hM,
    refWord_eq_zero_iff _ hE hM, RoundsPast, twiceMidpoint_infinity, twiceMidpoint_zero, and_true]
  omega

/-! ### Round trip (R81) -/

/-- A magnitude that is a word's number is rounded to that word in every mode. -/
theorem refWord_of_wordUnits (mode : RoundMode) {E M w : Nat} (hE : E < 255) (hM : M < 2 ^ 23) (hw : w ≤ 0x7C00)
    (hunits : singleUnits E M = wordUnits w) : (refWord mode E M).toNat = w := by
  have hle := refWord_le_infinity mode hE hM
  have hpast := fun p => succ_le_refWord_iff mode (p := p) hE hM
  rw [hunits] at hpast
  apply Nat.le_antisymm
  · by_contra! hlt
    exact not_roundsPast_of_le mode le_rfl ((hpast w (by omega)).mp hlt)
  · by_contra! hlt
    have hmono := wordUnits_strictMono.monotone (show (refWord mode E M).toNat + 1 ≤ w from hlt)
    exact Nat.not_succ_le_self _ ((hpast _ (by omega)).mpr (roundsPast_of_le mode hmono))

/-- A pattern that denotes a number is finite and has that number's sign and magnitude. -/
theorem fields_of_val32_finite {f : Single} {S : Bool} {u : Nat} (h : val32 f = .finite S u) :
    singleExp f ≠ 255 ∧ singleSign f = S ∧ singleUnits (singleExp f) (singleMant f) = u := by
  unfold val32 at h
  split_ifs at h with hE
  injection h with hS hu
  exact ⟨hE, hS, hu⟩

/-- The sign with a magnitude word that is the fields side by side is the half itself. -/
theorem withHalfSign_fields {h w : Half} (hw : w.toNat = halfExp h * 2 ^ 10 + halfMant h) :
    withHalfSign (halfSign h) w = h := by
  have he := halfExp_lt h
  have hm := halfMant_lt h
  apply BitVec.eq_of_toNat_eq
  rw [withHalfSign_toNat _ _ (by omega), half_fields h, hw, Nat.add_assoc]

/-- The family's result on the decode of an infinity or a NaN. -/
theorem encRefFamily_decodeHalf_nonfinite {h : Half} (he : halfExp h = 31) (mode : RoundMode) (earlyExit : Bool) :
    encRefFamily (decodeHalf h) mode earlyExit = withHalfSign (halfSign h) (nonfiniteWord (halfMant h * 2 ^ 13)) := by
  obtain ⟨hS, hE, hM⟩ := decodeHalf_nonfinite he
  rw [encRefFamily_eq, hS, hE, hM, refWord_isMax]

theorem val16_eq_nan_iff (h : Half) : val16 h = .nan ↔ halfExp h = 31 ∧ halfMant h ≠ 0 := by
  unfold val16
  split_ifs with he hm <;> simp [*]

/-- The family gives back a half that is not a NaN: `DEC` keeps its number. -/
theorem encRefFamily_decodeHalf {h : Half} (hnan : val16 h ≠ .nan) (mode : RoundMode) (earlyExit : Bool) :
    encRefFamily (decodeHalf h) mode earlyExit = h := by
  have he := halfExp_lt h
  have hm := halfMant_lt h
  rw [Ne, val16_eq_nan_iff] at hnan
  by_cases hmax : halfExp h = 31
  · have hm0 : halfMant h = 0 := by
      by_contra hm0
      exact hnan ⟨hmax, hm0⟩
    rw [encRefFamily_decodeHalf_nonfinite hmax]
    apply withHalfSign_fields
    rw [nonfiniteWord_toNat, hmax, hm0]
    rfl
  · have hval := val32_decodeHalf h
    rw [val16, if_neg hmax] at hval
    obtain ⟨hfinite, hS, hunits⟩ := fields_of_val32_finite hval
    have hword : wordUnits (halfExp h * 2 ^ 10 + halfMant h) = halfUnits (halfExp h) (halfMant h) := by
      rw [wordUnits, show (halfExp h * 2 ^ 10 + halfMant h) / 2 ^ 10 = halfExp h by omega,
        show (halfExp h * 2 ^ 10 + halfMant h) % 2 ^ 10 = halfMant h by omega]
    rw [encRefFamily_eq, hS]
    exact withHalfSign_fields (refWord_of_wordUnits mode (singleExp_lt_of_finite hfinite) (singleMant_lt _) (by omega)
      (hunits.trans hword.symm))

/-- The sign bit masked out of a half is the sign placed by R73. -/
theorem withHalfSign_eq_or (h w : Half) : withHalfSign (halfSign h) w = (h &&& 0x8000#16) ||| w := by
  rw [show 0x8000#16 = BitVec.twoPow 16 15 from rfl, BitVec.and_twoPow, ← halfSign, withHalfSign]
  cases halfSign h <;> rfl

/-- The family answers the one NaN word for a NaN. -/
theorem encRefFamily_decodeHalf_nan {h : Half} (hnan : val16 h = .nan) (mode : RoundMode) (earlyExit : Bool) :
    encRefFamily (decodeHalf h) mode earlyExit = (h &&& 0x8000#16) ||| 0x7E00#16 := by
  obtain ⟨he, hm⟩ := (val16_eq_nan_iff h).mp hnan
  rw [encRefFamily_decodeHalf_nonfinite he, withHalfSign_eq_or, nonfiniteWord, if_pos (by omega)]
  rfl

/-- The one NaN word with a half's sign is that half only for the two patterns it can be. -/
theorem nanWord_eq_self_iff (h : Half) :
    (h &&& 0x8000#16) ||| 0x7E00#16 = h ↔ h = 0x7E00#16 ∨ h = 0xFE00#16 := by
  constructor
  · rw [← withHalfSign_eq_or]
    intro heq
    rw [← heq]
    cases halfSign h with
    | false => exact .inl rfl
    | true => exact .inr rfl
  · rintro (rfl | rfl) <;> rfl

/-- Settles O39: the three encoders are the family, which gives back a number or an infinity and collapses a NaN. -/
theorem roundTripReference : Obligations.RoundTripReference := fun h =>
  ⟨fun hnan => ⟨encRefFamily_decodeHalf hnan _ _, encRefFamily_decodeHalf hnan _ _, encRefFamily_decodeHalf hnan _ _⟩,
    fun hnan => ⟨encRefFamily_decodeHalf_nan hnan _ _, encRefFamily_decodeHalf_nan hnan _ _,
      encRefFamily_decodeHalf_nan hnan _ _, nanWord_eq_self_iff h⟩⟩

end Sys2Proof.Machine
end

section
/-! PROOFS. The magic encoders that round as the reference family does: `ENC.FAST2` and `ENC.FAST3` are `ENC.REF` where
`FTZ` flushes nothing, and `ENC.FAST3RTNE` is `ENC.RTNE` (R86, R88). -/

namespace Sys2Proof.Machine

theorem exec_encFast2 (s : State) : exec .encFast2 s = .next (s.answer (placeHalf (encFast2 s.ftz s.din))) :=
  exec_eq _ s

theorem exec_encFast3 (s : State) : exec .encFast3 s = .next (s.answer (placeHalf (encFast3 s.ftz s.din))) :=
  exec_eq _ s

theorem exec_encFast3Rtne (s : State) : exec .encFast3Rtne s = .next (s.answer (placeHalf (encFast3Rtne s.din))) :=
  exec_eq _ s

/-- A magnitude word under the operand's sign, as the next state that differs in `dout` alone (R46, R83). -/
theorem answer_withHalfSign (s : State) {w : Half} {n : Nat} (hlt : w.toNat < 2 ^ 15) (hw : w.toNat = n) :
    s.answer (placeHalf (withHalfSign (singleSign s.din) w)) =
      { s with dout := BitVec.ofNat 32 (s.din.toNat / 2 ^ 31 * 2 ^ 15 + n) } := by
  rw [← hw, ← singleSign_eq, ← withHalfSign_toNat _ _ hlt, ← placeHalf_toNat, BitVec.ofNat_toNat,
    BitVec.setWidth_eq, State.answer]

/-! ### Scaling the magnitude (R61) -/

/-- The scaled pattern of a magnitude keeps bit 31 clear. -/
theorem scaleM112_lt (ftz : Bool) {a : Single} (ha : a.toNat < 2 ^ 31) : (scaleM112 ftz a).toNat < 2 ^ 31 := by
  rcases Nat.lt_or_ge (singleExp a) 113 with h | h
  · have := scaleM112_le ftz (a := a) (by omega)
    omega
  · rw [scaleM112_of_ge ftz a h]
    omega

/-- A multiple of the step is not rounded. -/
theorem rneShr_mul_two_pow (y n : Nat) : rneShr (y * 2 ^ n) n = y := by
  rcases Nat.eq_zero_or_pos n with rfl | hn
  · rw [rneShr_zero, pow_zero, Nat.mul_one]
  · have hhalf : 0 < 2 ^ (n - 1) := Nat.two_pow_pos _
    rw [rneShr_eq _ n hn, Nat.mul_div_cancel _ (Nat.two_pow_pos n), Nat.mul_mod_left, if_neg (by omega)]
    rfl

/-- Why the low 12 bits are masked off (R86): a shift by up to 12 is then exact, so that adding half of the last place
rounds once; a longer shift leaves less than half of the last place. -/
theorem rneShr_masked_halfUp {x : Nat} (hx : x < 2 ^ 24) (n : Nat) :
    (rneShr (x / 2 ^ 12 * 2 ^ 12) n + 2 ^ 12) / 2 ^ 13 = x / 2 ^ (n + 13) + x / 2 ^ (n + 12) % 2 := by
  have hquot : x / 2 ^ (n + 13) = x / 2 ^ (n + 12) / 2 := by rw [Nat.div_div_eq_div_mul, ← pow_succ]
  rcases Nat.lt_or_ge 12 n with h | h
  · have hle := rneShr_le (x / 2 ^ 12 * 2 ^ 12) n
    have hsmall : x / 2 ^ 12 * 2 ^ 12 / 2 ^ n ≤ x / 2 ^ 12 * 2 ^ 12 / 2 ^ 13 :=
      Nat.div_le_div_left (Nat.pow_le_pow_right (by omega) h) (by omega)
    have hzero : x / 2 ^ (n + 12) = 0 :=
      Nat.div_eq_of_lt (hx.trans_le (Nat.pow_le_pow_right (by omega) (by omega)))
    omega
  · have hexact : rneShr (x / 2 ^ 12 * 2 ^ 12) n = x / 2 ^ 12 * 2 ^ (12 - n) := by
      rw [show x / 2 ^ 12 * 2 ^ 12 = x / 2 ^ 12 * 2 ^ (12 - n) * 2 ^ n by
        rw [Nat.mul_assoc, ← pow_add, Nat.sub_add_cancel h], rneShr_mul_two_pow]
    have hshift : x / 2 ^ 12 * 2 ^ (12 - n) / 2 ^ 12 = x / 2 ^ (n + 12) := by
      calc x / 2 ^ 12 * 2 ^ (12 - n) / 2 ^ 12
          = x / 2 ^ 12 * 2 ^ (12 - n) / (2 ^ n * 2 ^ (12 - n)) := by rw [← pow_add, Nat.add_sub_cancel' h]
        _ = x / 2 ^ 12 / 2 ^ n := Nat.mul_div_mul_right _ _ (Nat.two_pow_pos _)
        _ = x / 2 ^ (n + 12) := by rw [Nat.div_div_eq_div_mul, ← pow_add, Nat.add_comm]
    omega

/-! ### `ENC.FAST2` and `ENC.FAST3` (R84, R85) -/

/-- The magnitude word of `ENC.FAST2` and `ENC.FAST3` below exponent field 255: scaled, half of the last place added,
clamped to infinity and truncated. -/
def fastWord (ftz : Bool) (f : Single) : Half :=
  readOffHalf (clampHalfInfinity (scaleM112 ftz (magnitudeOf f &&& 0xFFFFF000#32) + 0x00001000#32))

theorem encFast2_eq (ftz : Bool) (f : Single) :
    encFast2 ftz f =
      withHalfSign (singleSign f) (if singleExp f = 255 then nonfiniteWord (singleMant f) else fastWord ftz f) := by
  simp only [encFast2, and_eq_magnitudeOf, magnitudeOf_exp, magnitudeOf_mant, fastWord]

/-- `ENC.FAST3` is `ENC.FAST2` in another spelling: it tests the magnitude for exponent field 255 and subtracts the
mask where `ENC.FAST2` adds its negation. -/
theorem encFast3_eq_encFast2 (ftz : Bool) (f : Single) : encFast3 ftz f = encFast2 ftz f := by
  have hneg (p : PortWord) : p - 0xFFFFF000#32 = p + 0x00001000#32 := BitVec.sub_eq_add_neg _ _
  simp only [encFast2_eq, encFast3, mergeSign_eq, magnitudeOf_ge_infinity, hneg, fastWord]
  by_cases hE : singleExp f = 255
  · rw [if_pos hE, if_pos hE, nanOrInfinity_magnitudeOf f hE]
  · rw [if_neg hE, if_neg hE]

/-- The masked magnitude: its fields, the mantissa without its 12 low bits. -/
theorem maskedMagnitude_toNat (f : Single) :
    (magnitudeOf f &&& 0xFFFFF000#32).toNat = singleExp f * 2 ^ 23 + singleMant f / 2 ^ 12 * 2 ^ 12 := by
  rw [roundMask_toNat, magnitudeOf_fields]
  omega

theorem maskedMagnitude_exp (f : Single) : singleExp (magnitudeOf f &&& 0xFFFFF000#32) = singleExp f := by
  rw [roundMask_exp, magnitudeOf_exp]

theorem fastWord_toNat (ftz : Bool) (f : Single) :
    (fastWord ftz f).toNat =
      min ((scaleM112 ftz (magnitudeOf f &&& 0xFFFFF000#32)).toNat + 2 ^ 12) 0x0F800000 / 2 ^ 13 := by
  have hE := singleExp_lt f
  have hM := singleMant_lt f
  have ha := maskedMagnitude_toNat f
  have hlt := scaleM112_lt ftz (a := magnitudeOf f &&& 0xFFFFF000#32) (by omega)
  have hclamp := clampHalfInfinity_toNat (scaleM112 ftz (magnitudeOf f &&& 0xFFFFF000#32) + 0x00001000#32)
  rw [BitVec.toNat_add, BitVec.toNat_ofNat] at hclamp
  rw [fastWord, readOffHalf_toNat _ (by omega), hclamp]
  omega

/-- A flushed product leaves half of the last place, which truncates to 0. -/
theorem fastWord_of_scaled_zero {ftz : Bool} {f : Single}
    (h : scaleM112 ftz (magnitudeOf f &&& 0xFFFFF000#32) = 0#32) : fastWord ftz f = 0#16 := by
  rw [fastWord, h]
  rfl

theorem fastWord_flush {f : Single} (h : singleExp f ≤ 112) : fastWord true f = 0#16 :=
  fastWord_of_scaled_zero (scaleM112_flush _ (by rwa [maskedMagnitude_exp]))

/-- R73's case (d) in `HALF_UP` gives 0 in case (e) too, where the whole significand is discarded. -/
theorem refWord_halfUp_below {E M : Nat} (hE : E ≤ 112) (hM : M < 2 ^ 23) :
    (refWord .halfUp E M).toNat = (2 ^ 23 + M) / 2 ^ (126 - E) + (2 ^ 23 + M) / 2 ^ (125 - E) % 2 := by
  rcases Nat.lt_or_ge E 102 with h | h
  · have hzero : ∀ n, 24 ≤ n → (2 ^ 23 + M) / 2 ^ n = 0 := fun n hn =>
      Nat.div_eq_of_lt ((show 2 ^ 23 + M < 2 ^ 24 by omega).trans_le (Nat.pow_le_pow_right (by omega) hn))
    rw [refWord_tooSmall _ (by omega), hzero _ (by omega), hzero _ (by omega)]
    rfl
  · rw [refWord_subnormal _ h hE, subnormalWord_halfUp hE hM]

/-- Where nothing is flushed the word is `ENC.REF`'s (R86). -/
theorem fastWord_eq_refWord {ftz : Bool} {f : Single} (hfinite : singleExp f ≠ 255)
    (h : ftz = false ∨ singleExp f = 0 ∨ 113 ≤ singleExp f) :
    fastWord ftz f = refWord .halfUp (singleExp f) (singleMant f) := by
  have hE := singleExp_lt f
  have hM := singleMant_lt f
  have hexp := maskedMagnitude_exp f
  have ha := maskedMagnitude_toNat f
  rcases (show singleExp f = 0 ∨ (1 ≤ singleExp f ∧ singleExp f ≤ 112) ∨
      (113 ≤ singleExp f ∧ singleExp f ≤ 142) ∨ 143 ≤ singleExp f by omega) with
    h0 | ⟨h1, h2⟩ | ⟨h1, h2⟩ | h1
  · rw [fastWord_of_scaled_zero (scaleM112_exp_zero _ _ (by rw [hexp, h0])), refWord_tooSmall _ (by omega)]
  · obtain rfl : ftz = false := h.resolve_right (by omega)
    have hle := scaleM112_le false (a := magnitudeOf f &&& 0xFFFFF000#32) (by omega)
    have hsig : 2 ^ 23 + singleMant (magnitudeOf f &&& 0xFFFFF000#32) = (2 ^ 23 + singleMant f) / 2 ^ 12 * 2 ^ 12 := by
      rw [roundMask_mant, magnitudeOf_mant]
      omega
    apply BitVec.eq_of_toNat_eq
    rw [fastWord_toNat, Nat.min_eq_left (by omega), scaleM112_subnormal _ (by omega) (by omega), hsig, hexp,
      rneShr_masked_halfUp (by omega), refWord_halfUp_below h2 hM,
      show 113 - singleExp f + 13 = 126 - singleExp f by omega,
      show 113 - singleExp f + 12 = 125 - singleExp f by omega]
  · apply BitVec.eq_of_toNat_eq
    rw [fastWord_toNat, scaleM112_of_ge _ _ (by omega), ha, refWord_normal _ h1 h2, normalWord_halfUp h1 h2 hM]
    omega
  · apply BitVec.eq_of_toNat_eq
    rw [fastWord_toNat, scaleM112_of_ge _ _ (by omega), ha, refWord_overflow _ h1 (by omega), BitVec.toNat_ofNat]
    omega

/-- `ENC.FAST2` is `ENC.REF` where nothing is flushed: without `FTZ`, on exponent field 0, and in the normal range. -/
theorem encFast2_eq_encRef {ftz : Bool} {f : Single} (h : ftz = false ∨ singleExp f = 0 ∨ 113 ≤ singleExp f) :
    encFast2 ftz f = encRef f := by
  rw [encFast2_eq, encRef, encRefFamily_eq]
  split_ifs with hE
  · rw [hE, refWord_isMax]
  · rw [fastWord_eq_refWord hE h]

/-- `ENC.FAST2` under `FTZ` flushes below 2^-14 (R86). -/
theorem encFast2_flush {f : Single} (h : singleExp f ≤ 112) : encFast2 true f = withHalfSign (singleSign f) 0#16 := by
  rw [encFast2_eq, if_neg (by omega), fastWord_flush h]

/-- Settles O40: `ENC.FAST3` is `ENC.FAST2`, which is `ENC.REF` or flushed. -/
theorem fast2Fast3ClosedForm : Obligations.Fast2Fast3ClosedForm := by
  intro s S E
  have hE : singleExp s.din = E := singleExp_eq s.din
  rw [exec_encFast2, exec_encFast3, exec_encRef, encFast3_eq_encFast2]
  constructor
  · intro h
    rw [encFast2_eq_encRef (h.imp_right fun hge => .inr (hE ▸ hge))]
    exact ⟨_, rfl, rfl, rfl⟩
  · rintro ⟨hftz, hle⟩
    have hflush : encFast2 s.ftz s.din = withHalfSign (singleSign s.din) 0#16 := by
      rw [hftz, encFast2_flush (hE ▸ hle)]
    rw [hflush, answer_withHalfSign s (n := 0) (by decide) rfl, Nat.add_zero]
    exact ⟨rfl, rfl⟩

/-! ### `ENC.FAST3RTNE` (R87) -/

/-- Below 2^-14 the steps of 2^-24 that `add_half` adds are the word of `ENC.RTNE`. -/
theorem addHalfUnits_eq_refWord {a : Single} (h : singleExp a ≤ 112) :
    addHalfUnits a = (refWord .rne (singleExp a) (singleMant a)).toNat := by
  have hM := singleMant_lt a
  rcases (show singleExp a = 0 ∨ (1 ≤ singleExp a ∧ singleExp a ≤ 101) ∨ 102 ≤ singleExp a by omega) with
    h0 | ⟨h1, h2⟩ | h1
  · rw [addHalfUnits_zero a h0, refWord_tooSmall _ (by omega)]
    rfl
  · rw [addHalfUnits_pos a h1, rneShr_of_large (by omega) (by omega), refWord_tooSmall _ h2]
    rfl
  · rw [addHalfUnits_pos a (by omega), refWord_subnormal _ h1 h, subnormalWord_rne h hM]

/-- In the normal range the added constant rebiases the exponent and puts just under half of the last place below it;
the odd bit makes up the rest (R87). -/
theorem rebiasedOdd_toNat {f : Single} (h : 113 ≤ singleExp f) :
    (magnitudeOf f + 0xC8000FFF#32 + ((magnitudeOf f >>> 13) &&& 1#32)).toNat =
      (singleExp f - 112) * 2 ^ 23 + singleMant f + 0xFFF + singleMant f / 2 ^ 13 % 2 := by
  have hE := singleExp_lt f
  have hM := singleMant_lt f
  have ha := magnitudeOf_fields f
  have hodd : ((magnitudeOf f >>> 13) &&& 1#32).toNat = singleMant f / 2 ^ 13 % 2 := by
    rw [BitVec.toNat_and, BitVec.toNat_ushiftRight, Nat.shiftRight_eq_div_pow, BitVec.toNat_ofNat, Nat.and_one_is_mod]
    omega
  rw [BitVec.toNat_add, BitVec.toNat_add, hodd, BitVec.toNat_ofNat]
  omega

/-- `ENC.FAST3RTNE` is `ENC.RTNE` (R88). -/
theorem encFast3Rtne_eq_encRtne (f : Single) : encFast3Rtne f = encRtne f := by
  have hE := singleExp_lt f
  have hM := singleMant_lt f
  rw [encRtne, encRefFamily_eq]
  simp only [encFast3Rtne, mergeSign_eq, magnitudeOf_ge_65536, magnitudeOf_lt_normal]
  refine congrArg (withHalfSign (singleSign f)) ?_
  rcases (show singleExp f ≤ 112 ∨ (113 ≤ singleExp f ∧ singleExp f ≤ 142) ∨
      (143 ≤ singleExp f ∧ singleExp f < 255) ∨ singleExp f = 255 by omega) with h | ⟨h, h'⟩ | ⟨h, h'⟩ | h
  · have hword := addHalfUnits_eq_refWord (a := magnitudeOf f) (by rwa [magnitudeOf_exp])
    rw [magnitudeOf_exp, magnitudeOf_mant] at hword
    rw [if_neg (by omega), if_pos h, addHalf_sub, hword]
    simp
  · have hsum := rebiasedOdd_toNat h
    apply BitVec.eq_of_toNat_eq
    rw [if_neg (by omega), if_neg (by omega), readOffHalf_toNat _ (by omega), hsum, refWord_normal _ h h',
      normalWord_rne h h' hM, rneShr_eq _ 13 (by omega)]
    split_ifs <;> omega
  · rw [if_pos h, nanOrInfinity_of_finite f (by omega), refWord_overflow _ h h']
  · rw [if_pos (by omega), nanOrInfinity_magnitudeOf f h, h, refWord_isMax]

/-- Settles O41: the two encoders are one function. -/
theorem fast3RtneEqualsRtne : Obligations.Fast3RtneEqualsRtne := by
  intro s
  refine ⟨_, exec_encFast3Rtne s, ?_⟩
  rw [exec_encRtne, encFast3Rtne_eq_encRtne]

end Sys2Proof.Machine
end

section
/-! PROOFS. `ENC.APPROX`: its result by the exponent field, and what becomes of a NaN (R89, R90). -/

namespace Sys2Proof.Machine

theorem exec_encApprox (s : State) : exec .encApprox s = .next (s.answer (placeHalf (encApprox s.ftz s.din))) :=
  exec_eq _ s

/-! ### The pattern that the half bits are read off (R89) -/

/-- The scaled pattern of `ENC.APPROX`, of which it keeps bits 28 to 13. -/
def approxPattern (ftz : Bool) (f : Single) : PortWord :=
  if singleExp f = 255 then magnitudeOf f ^^^ 0x70000000#32
  else scaleM112 ftz (if magnitudeOf f > 0x47800000#32 then 0x47800000#32 else magnitudeOf f)

theorem encApprox_eq (ftz : Bool) (f : Single) :
    encApprox ftz f = withHalfSign (singleSign f) (readOffHalf (approxPattern ftz f)) := by
  simp only [encApprox, mergeSign_eq, magnitudeOf_ge_infinity, approxPattern]

/-- Bits 30 to 28 of a pattern with exponent field 255 are ones, which the exclusive or clears. -/
theorem approxPattern_nonfinite {f : Single} (hE : singleExp f = 255) (ftz : Bool) :
    (approxPattern ftz f).toNat = 0x0F800000 + singleMant f := by
  have hM := singleMant_lt f
  have ha : (magnitudeOf f).toNat = 255 * 2 ^ 23 + singleMant f := by rw [magnitudeOf_fields, hE]
  have hhigh : ((magnitudeOf f).toNat ^^^ 0x70000000) / 2 ^ 28 = 0 := by
    rw [Nat.xor_div_two_pow, ha, show (255 * 2 ^ 23 + singleMant f) / 2 ^ 28 = 7 by omega]
    rfl
  have hlow : ((magnitudeOf f).toNat ^^^ 0x70000000) % 2 ^ 28 = (magnitudeOf f).toNat % 2 ^ 28 := by
    rw [Nat.xor_mod_two_pow]
    exact Nat.xor_zero _
  rw [approxPattern, if_pos hE, BitVec.toNat_xor, show (0x70000000#32).toNat = 0x70000000 from rfl]
  omega

theorem magnitudeOf_gt_65536 (f : Single) :
    magnitudeOf f > 0x47800000#32 ↔ 0x47800000 < singleExp f * 2 ^ 23 + singleMant f := by
  rw [← magnitudeOf_fields]
  exact Iff.rfl

/-- Above 65536 the clamped operand scales to the pattern of infinity. -/
theorem approxPattern_overflow {f : Single} (hfinite : singleExp f ≠ 255)
    (h : 0x47800000 < singleExp f * 2 ^ 23 + singleMant f) (ftz : Bool) :
    (approxPattern ftz f).toNat = 0x0F800000 := by
  rw [approxPattern, if_neg hfinite, if_pos ((magnitudeOf_gt_65536 f).mpr h)]
  rfl

/-- Up to 65536 the operand is not clamped. -/
theorem approxPattern_of_le {f : Single} (h : singleExp f * 2 ^ 23 + singleMant f ≤ 0x47800000) (ftz : Bool) :
    approxPattern ftz f = scaleM112 ftz (magnitudeOf f) := by
  rw [approxPattern, if_neg (by omega), if_neg (by rw [magnitudeOf_gt_65536]; omega)]

theorem approxPattern_normal {f : Single} (h : 113 ≤ singleExp f)
    (hle : singleExp f * 2 ^ 23 + singleMant f ≤ 0x47800000) (ftz : Bool) :
    (approxPattern ftz f).toNat = (singleExp f - 112) * 2 ^ 23 + singleMant f := by
  rw [approxPattern_of_le hle, scaleM112_of_ge _ _ (by rwa [magnitudeOf_exp]), magnitudeOf_fields]
  omega

theorem approxPattern_exp_zero {f : Single} (h : singleExp f = 0) (ftz : Bool) : approxPattern ftz f = 0#32 := by
  have hM := singleMant_lt f
  rw [approxPattern_of_le (by omega), scaleM112_exp_zero _ _ (by rwa [magnitudeOf_exp])]

theorem approxPattern_flush {f : Single} (h : singleExp f ≤ 112) : approxPattern true f = 0#32 := by
  have hM := singleMant_lt f
  rw [approxPattern_of_le (by omega), scaleM112_flush _ (by rwa [magnitudeOf_exp])]

theorem approxPattern_subnormal {f : Single} (h1 : 1 ≤ singleExp f) (h : singleExp f ≤ 112) :
    (approxPattern false f).toNat = rneShr (2 ^ 23 + singleMant f) (113 - singleExp f) := by
  have hM := singleMant_lt f
  rw [approxPattern_of_le (by omega), scaleM112_subnormal _ (by rwa [magnitudeOf_exp]) (by rwa [magnitudeOf_exp]),
    magnitudeOf_exp, magnitudeOf_mant]

/-- The pattern's exponent field is at most 31, so the half bits below the sign hold it. -/
theorem approxPattern_lt (ftz : Bool) (f : Single) : (approxPattern ftz f).toNat < 2 ^ 28 := by
  have hM := singleMant_lt f
  by_cases hE : singleExp f = 255
  · rw [approxPattern_nonfinite hE]
    omega
  rcases Nat.lt_or_ge 0x47800000 (singleExp f * 2 ^ 23 + singleMant f) with h | h
  · rw [approxPattern_overflow hE h]
    omega
  rcases Nat.lt_or_ge (singleExp f) 113 with hlow | hnormal
  · have hle := scaleM112_le ftz (a := magnitudeOf f) (by rw [magnitudeOf_exp]; omega)
    rw [approxPattern_of_le h]
    omega
  · rw [approxPattern_normal hnormal h]
    omega

theorem approxWord_toNat (ftz : Bool) (f : Single) :
    (readOffHalf (approxPattern ftz f)).toNat = (approxPattern ftz f).toNat / 2 ^ 13 := by
  have hlt := approxPattern_lt ftz f
  rw [readOffHalf_toNat _ (by omega)]

/-! ### The answer case by case (R90) -/

/-- R90's table. -/
theorem approxWord_toNat_eq_ite (ftz : Bool) (f : Single) :
    (readOffHalf (approxPattern ftz f)).toNat =
      if singleExp f = 255 then 0x7C00 + singleMant f / 2 ^ 13
      else if 0x47800000 < singleExp f * 2 ^ 23 + singleMant f then 0x7C00
      else if 113 ≤ singleExp f then (singleExp f - 112) * 2 ^ 10 + singleMant f / 2 ^ 13
      else if singleExp f = 0 ∨ ftz = true then 0
      else ((2 ^ 23 + singleMant f) / 2 ^ (113 - singleExp f) +
        (if 2 ^ (112 - singleExp f) < (2 ^ 23 + singleMant f) % 2 ^ (113 - singleExp f) ∨
            ((2 ^ 23 + singleMant f) % 2 ^ (113 - singleExp f) = 2 ^ (112 - singleExp f) ∧
              (2 ^ 23 + singleMant f) / 2 ^ (113 - singleExp f) % 2 = 1)
          then 1 else 0)) / 2 ^ 13 := by
  rw [approxWord_toNat]
  by_cases hmax : singleExp f = 255
  · rw [if_pos hmax, approxPattern_nonfinite hmax]
    omega
  rw [if_neg hmax]
  by_cases hover : 0x47800000 < singleExp f * 2 ^ 23 + singleMant f
  · rw [if_pos hover, approxPattern_overflow hmax hover]
    rfl
  rw [if_neg hover]
  by_cases hnormal : 113 ≤ singleExp f
  · rw [if_pos hnormal, approxPattern_normal hnormal (by omega)]
    omega
  rw [if_neg hnormal]
  by_cases hzero : singleExp f = 0
  · rw [if_pos (.inl hzero), approxPattern_exp_zero hzero]
    rfl
  cases ftz with
  | true =>
    rw [if_pos (.inr rfl), approxPattern_flush (by omega)]
    rfl
  | false =>
    rw [if_neg (by simp [hzero]), approxPattern_subnormal (by omega) (by omega), rneShr_eq _ _ (by omega),
      show 113 - singleExp f - 1 = 112 - singleExp f by omega]

/-- Settles O42: R90's table under the operand's sign. -/
theorem encApproxAnswer : Obligations.EncApproxAnswer := by
  intro s S E M x
  have hlt := approxPattern_lt s.ftz s.din
  have hword := approxWord_toNat_eq_ite s.ftz s.din
  rw [singleExp_eq, singleMant_eq] at hword
  rw [exec_encApprox, encApprox_eq]
  exact congrArg _ (answer_withHalfSign s (by rw [approxWord_toNat]; omega) hword)

/-! ### NaN operands (R90, R105) -/

/-- An infinity or a NaN keeps its sign and the top 10 bits of its payload. -/
theorem encApprox_nonfinite {f : Single} (hE : singleExp f = 255) (ftz : Bool) :
    encApprox ftz f = halfOfFields (singleSign f) 31 (singleMant f / 2 ^ 13) := by
  have hM := singleMant_lt f
  rw [encApprox_eq, halfOfFields]
  refine congrArg (withHalfSign (singleSign f)) (BitVec.eq_of_toNat_eq ?_)
  rw [approxWord_toNat, approxPattern_nonfinite hE, BitVec.toNat_ofNat]
  omega

/-- A NaN has the greatest exponent field and a payload (R42). -/
theorem max_of_isNaN_categoryOf {Xmax X F : Nat} {q : Bool} :
    (categoryOf Xmax X F q).isNaN = true → X = Xmax ∧ F ≠ 0 := by
  unfold categoryOf
  split_ifs <;> simp [Category.isNaN, *]

theorem placeHalf_lower (hw : Half) : (placeHalf hw).extractLsb' 0 16 = hw := by
  apply BitVec.eq_of_toNat_eq
  rw [BitVec.extractLsb'_toNat, placeHalf_toNat, Nat.shiftRight_zero, Nat.mod_eq_of_lt hw.isLt]

/-- Settles O43: the quiet bit is the top bit of both payloads, and it is 0 in a payload below `2^13`. -/
theorem encApproxOnNaN : Obligations.EncApproxOnNaN := by
  intro s hnan
  obtain ⟨hE, hM0⟩ := max_of_isNaN_categoryOf hnan
  have hM := singleMant_lt s.din
  have hpayload : singleMant s.din / 2 ^ 13 < 2 ^ 10 := by omega
  have hcat32 := HasFields.cat32_eq (f := s.din) ⟨rfl, hE, rfl⟩
  obtain ⟨-, hexp, hmant⟩ := halfOfFields_fields (singleSign s.din) (e := 31) (by omega) hpayload
  have hcat16 := cat16_eq (halfOfFields (singleSign s.din) 31 (singleMant s.din / 2 ^ 13))
  rw [categoryOf_max (by omega), if_neg hM0] at hcat32
  rw [hexp, hmant, categoryOf_max (by omega)] at hcat16
  refine ⟨_, exec_encApprox s, ?_⟩
  rw [encApprox_nonfinite hE, State.answer_dout, placeHalf_lower, placeHalf_toNat,
    halfOfFields_toNat _ (by omega) hpayload, hcat16, hcat32, ← singleMant_eq]
  constructor
  · intro hlow
    rw [if_neg (by rw [decide_eq_true_iff]; omega), if_pos (by omega)]
    exact ⟨rfl, rfl⟩
  · intro hhigh
    have hquiet : 2 ^ 9 ≤ singleMant s.din / 2 ^ 13 ↔ 2 ^ 22 ≤ singleMant s.din := by omega
    rw [if_neg (by omega), decide_eq_decide.mpr hquiet]
    exact ⟨rfl, by omega⟩

end Sys2Proof.Machine
end

section
/-! PROOFS. Round trip through the magic encoders (R91): a widened half has an exponent field on which nothing is
flushed, unless it is subnormal. -/

namespace Sys2Proof.Machine

/-! ### Exponent fields of widened halves -/

theorem cat16_eq_subnormal_iff (h : Half) : cat16 h = .subnormal ↔ halfExp h = 0 ∧ halfMant h ≠ 0 := by
  unfold cat16 categoryOf
  split_ifs <;> simp [*]

/-- Only a subnormal widens into the range that `FTZ` flushes. -/
theorem singleExp_decodeHalf {h : Half} (hsub : cat16 h ≠ .subnormal) :
    singleExp (decodeHalf h) = 0 ∨ 113 ≤ singleExp (decodeHalf h) := by
  rcases half_cases h with he | ⟨h1, h2⟩ | ⟨he, hm⟩ | hsubnormal
  · rw [(decodeHalf_nonfinite he).exp]
    omega
  · rw [(decodeHalf_normal h1 h2).exp]
    omega
  · exact .inl (decodeHalf_zero he hm).exp
  · exact absurd ((cat16_eq_subnormal_iff h).mpr hsubnormal) hsub

theorem singleExp_decodeHalf_subnormal {h : Half} (he : halfExp h = 0) (hm : halfMant h ≠ 0) :
    singleExp (decodeHalf h) ≤ 112 := by
  have hk := log2_le_nine hm (halfMant_lt h)
  rw [(decodeHalf_subnormal he hm).exp]
  omega

/-! ### Each encoder on a widened half -/

/-- Where a widened half is not flushed, `ENC.FAST2` is `ENC.REF`. -/
theorem encFast2_decodeHalf {h : Half} {z : Bool} (hz : z = false ∨ cat16 h ≠ .subnormal) :
    encFast2 z (decodeHalf h) = encRef (decodeHalf h) :=
  encFast2_eq_encRef (hz.imp_right singleExp_decodeHalf)

/-- The significand of a widened subnormal is `m` with zeros below, and those zeros are all that is shifted out. -/
theorem approxPattern_decodeHalf_subnormal {h : Half} (he : halfExp h = 0) (hm : halfMant h ≠ 0) :
    (approxPattern false (decodeHalf h)).toNat = halfMant h * 2 ^ 13 := by
  have hk := log2_le_nine hm (halfMant_lt h)
  obtain ⟨-, hE, hM⟩ := decodeHalf_subnormal he hm
  rw [approxPattern_subnormal (by omega) (by omega), hE, hM, (log2_renormalised hm (halfMant_lt h)).1,
    show 23 - Nat.log2 (halfMant h) = 13 + (113 - (103 + Nat.log2 (halfMant h))) by omega, pow_add, ← Nat.mul_assoc,
    rneShr_mul_two_pow]

/-- Where a widened half is not flushed, `ENC.APPROX` truncates only zeros. -/
theorem encApprox_decodeHalf {h : Half} {z : Bool} (hz : z = false ∨ cat16 h ≠ .subnormal) :
    encApprox z (decodeHalf h) = h := by
  have hlt := halfMant_lt h
  rcases half_cases h with he | ⟨h1, h2⟩ | ⟨he, hm⟩ | ⟨he, hm⟩
  · obtain ⟨hS, hE, hM⟩ := decodeHalf_nonfinite he
    rw [encApprox_nonfinite hE, hS, hM, Nat.mul_div_cancel _ (by omega), ← he, halfOfFields_self]
  · obtain ⟨hS, hE, hM⟩ := decodeHalf_normal h1 h2
    rw [encApprox_eq, hS]
    apply withHalfSign_fields
    rw [approxWord_toNat, approxPattern_normal (by omega) (by omega), hE, hM]
    omega
  · obtain ⟨hS, hE, -⟩ := decodeHalf_zero he hm
    rw [encApprox_eq, hS, approxPattern_exp_zero hE]
    apply withHalfSign_fields
    rw [he, hm]
    rfl
  · obtain rfl : z = false := hz.resolve_right (not_not.mpr ((cat16_eq_subnormal_iff h).mpr ⟨he, hm⟩))
    rw [encApprox_eq, (decodeHalf_subnormal he hm).sign]
    apply withHalfSign_fields
    rw [approxWord_toNat, approxPattern_decodeHalf_subnormal he hm]
    omega

/-- Under `FTZ` a widened subnormal becomes a zero with its sign. -/
theorem flush_decodeHalf {h : Half} (hsub : cat16 h = .subnormal) :
    encFast2 true (decodeHalf h) = h &&& 0x8000#16 ∧ encApprox true (decodeHalf h) = h &&& 0x8000#16 := by
  obtain ⟨he, hm⟩ := (cat16_eq_subnormal_iff h).mp hsub
  have hle := singleExp_decodeHalf_subnormal he hm
  have hzero : withHalfSign (singleSign (decodeHalf h)) 0#16 = h &&& 0x8000#16 := by
    rw [(decodeHalf_subnormal he hm).sign, withHalfSign_eq_or, BitVec.or_zero]
  rw [encFast2_flush hle, encApprox_eq, approxPattern_flush hle]
  exact ⟨hzero, hzero⟩

theorem ne_subnormal_of_nan {h : Half} (hnan : val16 h = .nan) : cat16 h ≠ .subnormal := by
  rw [val16_eq_nan_iff] at hnan
  rw [Ne, cat16_eq_subnormal_iff]
  omega

/-- Settles O45: `ENC.FAST3RTNE` and, where nothing is flushed, `ENC.FAST2` and `ENC.FAST3` are in the reference family,
whose round trip is known; `ENC.APPROX` gives back even a NaN. -/
theorem roundTripMagic : Obligations.RoundTripMagic := by
  intro h z
  rw [encFast3Rtne_eq_encRtne, encFast3_eq_encFast2]
  refine ⟨fun hnan => encRefFamily_decodeHalf hnan _ _, fun hnan hz => ?_, ?_, fun hnan => ?_⟩
  · have hfast2 : encFast2 z (decodeHalf h) = h := (encFast2_decodeHalf hz).trans (encRefFamily_decodeHalf hnan _ _)
    exact ⟨hfast2, hfast2, encApprox_decodeHalf hz⟩
  · rintro rfl hsub
    obtain ⟨hfast2, happrox⟩ := flush_decodeHalf hsub
    exact ⟨hfast2, hfast2, happrox⟩
  · have hsub := ne_subnormal_of_nan hnan
    have hfast2 : encFast2 z (decodeHalf h) = (h &&& 0x8000#16) ||| 0x7E00#16 :=
      (encFast2_decodeHalf (.inr hsub)).trans (encRefFamily_decodeHalf_nan hnan _ _)
    exact ⟨encApprox_decodeHalf (.inr hsub), hfast2, hfast2, encRefFamily_decodeHalf_nan hnan _ _⟩

end Sys2Proof.Machine
end

section
/-! PROOFS. Platform dispatch: `ENC.NATIVE` in either build, what `DEC` answers with the native unit, and the function of
the whole block, with what of `FTZ` and of the build it sees (R97 to R102). -/

namespace Sys2Proof.Machine

/-- Settles O7: the fetched instruction's answer is the block's function, and a step drives it. -/
theorem stepAnswersBlockFunction : Obligations.StepAnswersBlockFunction := fun s => step_eq s

/-! ### `ENC.NATIVE` (R98) -/

theorem exec_encNative (s : State) :
    exec .encNative s = .next (s.answer (placeHalf (encNative s.hasNative Config.nativeEncNonfinite s.din))) :=
  exec_eq _ s

/-- The portable build falls back to the default encoder. -/
theorem encNative_portable (nonfinite : Single → Half) (f : Single) : encNative false nonfinite f = encFast3Rtne f :=
  rfl

/-- On a finite operand both branches round to nearest even (R88). -/
theorem encNative_finite (hasNative : Bool) (nonfinite : Single → Half) {f : Single} (h : singleExp f ≠ 255) :
    encNative hasNative nonfinite f = encRtne f := by
  cases hasNative with
  | false => rw [encNative_portable, encFast3Rtne_eq_encRtne]
  | true => exact if_pos h

/-- On an infinity or a NaN the native unit is the parameter function (R100). -/
theorem encNative_nonfinite {hasNative : Bool} (hbuild : hasNative = true) (nonfinite : Single → Half) {f : Single}
    (h : singleExp f = 255) : encNative hasNative nonfinite f = nonfinite f := by
  rw [hbuild]
  exact if_neg (not_not.mpr h)

/-- Settles O46: the portable build's `ENC.NATIVE` is its default encoder. -/
theorem encNativePortable : Obligations.EncNativePortable := by
  intro s hbuild
  refine ⟨_, exec_encNative s, ?_⟩
  rw [exec_encFast3Rtne, hbuild, encNative_portable]

/-- Settles O47: all three are `ENC.RTNE`. -/
theorem encNativeFinite : Obligations.EncNativeFinite := by
  intro s hfinite
  rw [← singleExp_eq] at hfinite
  rw [exec_encNative, exec_encFast3Rtne, exec_encRtne, encNative_finite _ _ hfinite, encFast3Rtne_eq_encRtne]
  exact ⟨_, rfl, rfl, rfl⟩

/-- Settles O48: the parameter function's half word is placed on the port. -/
theorem encNativeNonfinite : Obligations.EncNativeNonfinite := by
  intro s hbuild hmax
  rw [← singleExp_eq] at hmax
  rw [exec_encNative, encNative_nonfinite hbuild _ hmax, placeHalf, State.answer]

/-! ### `DEC` with the native unit (R99) -/

/-- On an infinity or a NaN the native unit is the parameter function (R100). -/
theorem decodeTop_nonfinite {hasNative : Bool} (hbuild : hasNative = true) (nonfinite : Half → Single) {h : Half}
    (he : halfExp h = 31) : decodeTop hasNative nonfinite h = nonfinite h := by
  rw [hbuild]
  exact if_neg (not_not.mpr he)

/-- Settles O28: the operand's exponent field is that of `din[15:0]`. -/
theorem decNativeNonfinite : Obligations.DecNativeNonfinite := by
  intro s v hbuild hmax
  obtain ⟨-, hexp, -⟩ := s.operandHalf_fields
  rw [exec_eq, answerOf, decodeTop_nonfinite hbuild _ (hexp.trans hmax), State.answer, State.operandHalf]

/-! ### What the block sees of the build (R97, R102) -/

/-- The selectors of the seven portable encoders are 0 to 6 (R45). -/
theorem portable_variant_lt : ∀ c : Command, c.getLsbD 3 = false → c ≠ 0b0111#4 → (c.extractLsb' 0 3).toNat < 7 := by
  decide

/-- A portable encoder has no parameter of the build among its arguments. -/
theorem blockExec_portable {c : Command} (hdir : c.getLsbD 3 = false) (hc : c ≠ 0b0111#4) (b b' : Bool)
    (ne ne' : Single → Half) (nd nd' : Half → Single) (d : PortWord) (z : Bool) :
    blockExec b ne nd c d z = blockExec b' ne' nd' c d z := by
  have hvariant := portable_variant_lt c hdir hc
  unfold blockExec
  simp only [hdir, Bool.false_eq_true, if_false]
  generalize (c.extractLsb' 0 3).toNat = n at hvariant
  match n with
  | 0 | 1 | 2 | 3 | 4 | 5 | 6 => rfl
  | _ + 7 => omega

theorem blockExec_encNative (b : Bool) (ne : Single → Half) (nd : Half → Single) (d : PortWord) (z : Bool) :
    blockExec b ne nd 0b0111#4 d z = placeHalf (encNative b ne d) := rfl

theorem blockExec_decode (b : Bool) (ne : Single → Half) (nd : Half → Single) {c : Command} (hdir : c.getLsbD 3 = true)
    (d : PortWord) (z : Bool) : blockExec b ne nd c d z = decodeTop b nd (d.extractLsb' 0 16) := if_pos hdir

/-- The exponent field of the half pattern in `din[15:0]` (R39, R46). -/
theorem halfExp_low (d : PortWord) : halfExp (d.extractLsb' 0 16) = d.toNat / 2 ^ 10 % 2 ^ 5 :=
  have ⟨_, hexp, _⟩ := State.operandHalf_fields { State.reset with din := d }
  hexp

/-- Settles O17: the portable encoders read nothing of the build; on the operands that are left, `ENC.NATIVE` is
`ENC.RTNE` and the decode is R68's, in every build. -/
theorem buildSeenOnlyOnNonfinite : Obligations.BuildSeenOnlyOnNonfinite := by
  intro b b' ne ne' nd nd' c d z henc hdec
  cases hdir : c.getLsbD 3 with
  | true =>
    have he : halfExp (d.extractLsb' 0 16) ≠ 31 := by
      rw [halfExp_low]
      exact hdec hdir
    rw [blockExec_decode _ _ _ hdir, blockExec_decode _ _ _ hdir, decodeTop_of_fixed (.inr he),
      decodeTop_of_fixed (.inr he)]
  | false =>
    by_cases hc : c = 0b0111#4
    · have hE : singleExp d ≠ 255 := by
        rw [singleExp_eq]
        exact (henc hdir).resolve_left (not_not.mpr hc)
      rw [hc, blockExec_encNative, blockExec_encNative, encNative_finite _ _ hE, encNative_finite _ _ hE]
    · exact blockExec_portable hdir hc ..

/-! ### What the block sees of `FTZ` (R102) -/

/-- `ENC.FAST2` is `ENC.REF` under either `FTZ` where no product is below 2^-126. -/
theorem encFast2_ftz_congr {f : Single} (h : 113 ≤ singleExp f) (z z' : Bool) : encFast2 z f = encFast2 z' f := by
  rw [encFast2_eq_encRef (.inr (.inr h)), encFast2_eq_encRef (.inr (.inr h))]

/-- `ENC.APPROX` scales an operand whose product is not below 2^-126, or the clamp 65536. -/
theorem encApprox_ftz_congr {f : Single} (h : 113 ≤ singleExp f) (z z' : Bool) : encApprox z f = encApprox z' f := by
  have hpattern : approxPattern z f = approxPattern z' f := by
    unfold approxPattern
    split_ifs
    · rfl
    · rfl
    · apply BitVec.eq_of_toNat_eq
      rw [scaleM112_of_ge _ _ (by rwa [magnitudeOf_exp]), scaleM112_of_ge _ _ (by rwa [magnitudeOf_exp])]
  rw [encApprox_eq, encApprox_eq, hpattern]

/-- Three instructions read `FTZ`, and they only on an exponent field of at most 112. -/
theorem answerOf_ftz_congr {i : Instr} {s : State}
    (h : (i ≠ .encFast2 ∧ i ≠ .encFast3 ∧ i ≠ .encApprox) ∨ 113 ≤ singleExp s.din) (z : Bool) :
    answerOf i { s with ftz := z } = answerOf i s := by
  cases i with
  | encFast2 => exact congrArg placeHalf (encFast2_ftz_congr (h.resolve_left (by simp)) _ _)
  | encFast3 =>
    rw [answerOf, answerOf, encFast3_eq_encFast2, encFast3_eq_encFast2]
    exact congrArg placeHalf (encFast2_ftz_congr (h.resolve_left (by simp)) _ _)
  | encApprox => exact congrArg placeHalf (encApprox_ftz_congr (h.resolve_left (by simp)) _ _)
  | encRef | encRtne | encFast | encFast3Rtne | encNative | dec => rfl

/-- A command that is not an instruction's word does not select it (R45). -/
theorem decode_ne {c : Command} {i : Instr} (h : c ≠ encode i) : decode c ≠ i := by
  rintro rfl
  exact h (encode_decode c).symm

/-- Settles O15: the commands named are those of the three instructions that read `FTZ`. -/
theorem ftzSeenOnlyBelowNormals : Obligations.FtzSeenOnlyBelowNormals := by
  intro s z h
  rw [← singleExp_eq] at h
  have hread : (s.fetched ≠ .encFast2 ∧ s.fetched ≠ .encFast3 ∧ s.fetched ≠ .encApprox) ∨ 113 ≤ singleExp s.din :=
    h.imp_left fun ⟨h2, h3, happrox⟩ => ⟨decode_ne h2, decode_ne h3, decode_ne happrox⟩
  apply step_dout_congr
  rw [← answerOf_fetched, ← answerOf_fetched]
  exact answerOf_ftz_congr hread z

end Sys2Proof.Machine
end

section
/-! PROOFS. Exceptional cases: nothing stops, and a NaN's payload collapses in every encoder that is of the reference
family on it (R104, R105, R116). -/

namespace Sys2Proof.Machine

/-- Settles O6: an instruction and a step can do one thing only, and that is to drive `dout`. -/
theorem nothingEverStops : Obligations.NothingEverStops :=
  ⟨fun i s => ⟨_, exec_eq i s⟩, fun s => ⟨_, step_eq s⟩⟩

/-! ### NaN operands (R105) -/

theorem refWord_nan (mode : RoundMode) {M : Nat} (hM : M ≠ 0) : refWord mode 255 M = 0x7E00#16 := by
  rw [refWord_isMax, nonfiniteWord, if_pos hM]
  rfl

/-- The reference family gives a NaN's sign and the one NaN word, in every mode. -/
theorem encRefFamily_nan {f : Single} (hE : singleExp f = 255) (hM : singleMant f ≠ 0) (mode : RoundMode)
    (earlyExit : Bool) : encRefFamily f mode earlyExit = withHalfSign (singleSign f) 0x7E00#16 := by
  rw [encRefFamily_eq, hE, refWord_nan mode hM]

/-- Settles O44: on exponent field 255 each encoder named is a member of the reference family, the magic ones because
nothing is flushed there. -/
theorem nanPayloadCollapses : Obligations.NaNPayloadCollapses := by
  intro s i hnan hi
  obtain ⟨hE, hM⟩ := max_of_isNaN_categoryOf hnan
  rw [← answer_withHalfSign s (w := 0x7E00#16) (n := 0x7E00) (by decide) rfl]
  have href : encRef s.din = withHalfSign (singleSign s.din) 0x7E00#16 := encRefFamily_nan hE hM _ _
  have hrtne : encRtne s.din = withHalfSign (singleSign s.din) 0x7E00#16 := encRefFamily_nan hE hM _ _
  have hfast2 : encFast2 s.ftz s.din = encRef s.din := encFast2_eq_encRef (.inr (.inr (by omega)))
  rcases hi with rfl | rfl | rfl | rfl | rfl | rfl | ⟨rfl, hbuild⟩
  · rw [exec_encRef, href]
  · rw [exec_encRtne, hrtne]
  · rw [exec_encFast, encFast_eq_encRef, href]
  · rw [exec_encFast2, hfast2, href]
  · rw [exec_encFast3, encFast3_eq_encFast2, hfast2, href]
  · rw [exec_encFast3Rtne, encFast3Rtne_eq_encRtne, hrtne]
  · rw [exec_encNative, hbuild, encNative_portable, encFast3Rtne_eq_encRtne, hrtne]

end Sys2Proof.Machine
end
